-- ==== Sys2Proof/Word.lean ====
section
/-! DEFINITION. The machine's number types and their plainest conversions (spec/00_scope.md R6, R8, R9). -/

namespace Sys2Proof

/-- A register, a timer, a memory cell, an immediate `kk`: 8 bits (R6, R30, R37, R70). -/
abbrev Byte := BitVec 8

/-- An instruction word, `I`, `pc`, a saved return address: 16 bits (R6, R33, R36, R39, R100). -/
abbrev Word := BitVec 16

/-- The address operand `nnn`: 12 bits (R6, R101). -/
abbrev Addr := BitVec 12

/-- A register index 0x0–0xF naming `V0`–`VF` (R30, R103). -/
abbrev Reg := Fin 16

/-- The small nibble `n`: a count 0–15, the height of a sprite (R101, R103). -/
abbrev Nibble := Fin 16

/-- A key value 0x0–0xF (R41). -/
abbrev Key := Fin 16

/-- Register 15, the flag register (R31). -/
def VF : Reg := 15

/-- `zext_16` of an address operand (R9, R103). -/
def zextAddr (a : Addr) : Word := a.setWidth 16

/-- `zext_16` of a byte (R9). -/
def zextByte (b : Byte) : Word := b.setWidth 16

end Sys2Proof
end

