-- ==== Sys2Proof/Config.lean ====
section
/-! DEFINITION. What the source leaves to the implementation (spec/00_scope.md R7), the fixed sizes (R6), the font
(spec/70_reset_and_hazards.md R401) and the two free values. -/

namespace Sys2Proof

/-- The order in which a flag-writing instruction writes its result and `VF` (41_alu.md R206, decision D8). -/
inductive Config.VfWriteOrder where
  /-- Result first, flag last: a destination `x = F` ends holding the flag. -/
  | flagLast
  /-- Flag first, result last: a destination `x = F` ends holding the result. -/
  | resultLast
  deriving DecidableEq, Repr

/-- The parameters of R7 that have a default. A meaning that depends on one takes it as an argument (`exec…With`),
so that a claim may hold for every value of it; the arms of `exec` use `Config.params`. -/
structure Config.Params where
  /-- `STACK_LIMIT` (R39, R154, decision D18): the most entries the return stack may hold, `none` for no limit. -/
  stackLimit : Option Nat
  /-- `SHL_VF_NORMALISE` (R211, decision D7). -/
  shlVfNormalise : Bool
  /-- `VF_WRITE_ORDER` (R206, decision D8). -/
  vfWriteOrder : Config.VfWriteOrder
  /-- `DRW_VF_CLEAR` (R291, decision D9). -/
  drwVfClear : Bool
  deriving DecidableEq, Repr

/-- The default of every parameter, as R7 states it. -/
def Config.params : Config.Params where
  stackLimit := none
  shlVfNormalise := false
  vfWriteOrder := .flagLast
  drwVfClear := true

/-- `FONT_ADDR_HIGH` (R7, R252, decision D12): the value of `I` after `LoadFont` of a value above 15. The spec leaves
it OPEN. A FREE VALUE: no body, so nothing can be proved of it. Assumption log 2. -/
opaque Config.fontAddrHigh : Byte → Word

/-- `RANDOM` (R7, R212, decision D21): the byte of the `k`-th draw, "a free draw per step under no law". A FREE VALUE:
no body, so nothing can be proved of it. Assumption log 1. -/
opaque Config.randomByte : Nat → Byte

/-- Memory is 4096 bytes, addresses 0x000–0xFFF (R6, R70). -/
def Config.memSize : Nat := 4096

/-- The program is loaded, and execution starts, at 0x200 (R6, R71, R402). -/
def Config.loadAddress : Nat := 0x200

/-- `FONT`: the 80 bytes at 0x000–0x04F, glyph `d` at `5·d` (70_reset_and_hazards.md R401, decision D3).
PRESUMED: the spec takes the bytes from general knowledge. Assumption log 4. -/
def Config.font : List Byte :=
  [0xF0, 0x90, 0x90, 0x90, 0xF0] ++ [0x20, 0x60, 0x20, 0x20, 0x70] ++
  [0xF0, 0x10, 0xF0, 0x80, 0xF0] ++ [0xF0, 0x10, 0xF0, 0x10, 0xF0] ++
  [0x90, 0x90, 0xF0, 0x10, 0x10] ++ [0xF0, 0x80, 0xF0, 0x10, 0xF0] ++
  [0xF0, 0x80, 0xF0, 0x90, 0xF0] ++ [0xF0, 0x10, 0x20, 0x40, 0x40] ++
  [0xF0, 0x90, 0xF0, 0x90, 0xF0] ++ [0xF0, 0x90, 0xF0, 0x10, 0xF0] ++
  [0xF0, 0x90, 0xF0, 0x90, 0x90] ++ [0xE0, 0x90, 0xE0, 0x90, 0xE0] ++
  [0xF0, 0x80, 0x80, 0x80, 0xF0] ++ [0xE0, 0x90, 0x90, 0x90, 0xE0] ++
  [0xF0, 0x80, 0xF0, 0x80, 0xF0] ++ [0xF0, 0x80, 0xF0, 0x80, 0x80]

end Sys2Proof
end

