-- ==== Sys2Proof/Syntax.lean ====
section
/-! DEFINITION. The instruction set: one constructor for each of the 35 rows of spec/opcode_table.json
(spec/30_encoding.md R104), named as the spec names the variant, with the operands of R101 and R103. `RawData` (R108)
has no row in the table; it stands beside `Instr` in Decode.lean (`InstrModel`). -/

namespace Sys2Proof

/-- The 35 decodable instructions (R104). -/
inductive Instr where
  /-- `cls`, 00E0 (R290). -/
  | clear
  /-- `ret`, 00EE: the spec's variant `Return` (R152). -/
  | ret
  /-- `sys nnn`, 0nnn with nnn not 0E0 or 0EE (R151). -/
  | sys (nnn : Addr)
  /-- `jp nnn`, 1nnn (R153). -/
  | jump (nnn : Addr)
  /-- `call nnn`, 2nnn (R154). -/
  | call (nnn : Addr)
  /-- `se vx, kk`, 3xkk (R155). -/
  | ifEq (x : Reg) (kk : Byte)
  /-- `sne vx, kk`, 4xkk (R156). -/
  | ifNeq (x : Reg) (kk : Byte)
  /-- `se vx, vy`, 5xy0 (R157). -/
  | ifEqReg (x y : Reg)
  /-- `ld vx, kk`, 6xkk (R200). -/
  | loadImm (x : Reg) (kk : Byte)
  /-- `add vx, kk`, 7xkk (R201). -/
  | add (x : Reg) (kk : Byte)
  /-- `ld vx, vy`, 8xy0 (R202). -/
  | loadReg (x y : Reg)
  /-- `or vx, vy`, 8xy1 (R203). -/
  | or (x y : Reg)
  /-- `and vx, vy`, 8xy2 (R204). -/
  | and (x y : Reg)
  /-- `xor vx, vy`, 8xy3 (R205). -/
  | xor (x y : Reg)
  /-- `add vx, vy`, 8xy4 (R207). -/
  | addReg (x y : Reg)
  /-- `sub vx, vy`, 8xy5 (R208). -/
  | sub (x y : Reg)
  /-- `shr vx, vy`, 8xy6 (R209). -/
  | rightShift (x y : Reg)
  /-- `subn vx, vy`, 8xy7 (R210). -/
  | subSelf (x y : Reg)
  /-- `shl vx, vy`, 8xyE (R211). -/
  | leftShift (x y : Reg)
  /-- `sne vx, vy`, 9xy0 (R158). -/
  | ifNeqReg (x y : Reg)
  /-- `ld i, nnn`, Annn (R250). -/
  | loadI (nnn : Addr)
  /-- `jp v0, nnn`, Bnnn (R159). -/
  | jumpV0 (nnn : Addr)
  /-- `rnd vx, kk`, Cxkk (R212). -/
  | random (x : Reg) (kk : Byte)
  /-- `drw vx, vy, n`, Dxyn (R291). -/
  | display (x y : Reg) (n : Nibble)
  /-- `skp vx`, Ex9E (R321). -/
  | keyOpEq (x : Reg)
  /-- `sknp vx`, ExA1 (R322). -/
  | keyOpNeq (x : Reg)
  /-- `ld vx, dt`, Fx07 (R324). -/
  | getDelay (x : Reg)
  /-- `ld vx, k`, Fx0A (R323). -/
  | getKeyOp (x : Reg)
  /-- `ld dt, vx`, Fx15 (R325). -/
  | setDelay (x : Reg)
  /-- `ld st, vx`, Fx18 (R326). -/
  | setSound (x : Reg)
  /-- `add i, vx`, Fx1E (R251). -/
  | addI (x : Reg)
  /-- `ld f, vx`, Fx29 (R252). -/
  | loadFont (x : Reg)
  /-- `ld b, vx`, Fx33 (R253). -/
  | bcd (x : Reg)
  /-- `ld [i], vx`, Fx55 (R254). -/
  | memDump (x : Reg)
  /-- `ld vx, [i]`, Fx65 (R255). -/
  | memLoad (x : Reg)
  deriving DecidableEq, Repr

end Sys2Proof
end

