-- ==== Sys2Proof/WellFormed.lean ====
section
/-! DEFINITION. Which instruction values are well formed (spec/30_encoding.md R109). Every operand is typed at its exact
width (R103, R107), so the one check is on `Sys`: `Sys(0x0E0)` and `Sys(0x0EE)` are ill-formed, since their words decode
as `Clear` and `Return`. -/

namespace Sys2Proof

/-- R109: "`Sys(0x0E0)` and `Sys(0x0EE)` are ill-formed …; every other value of every variant is well-formed". -/
def Instr.wf : Instr → Bool
  | .sys nnn => nnn != 0x0E0#12 && nnn != 0x0EE#12
  | .clear | .ret | .jump _ | .call _ | .ifEq _ _ | .ifNeq _ _ | .ifEqReg _ _ | .loadImm _ _ | .add _ _
  | .loadReg _ _ | .or _ _ | .and _ _ | .xor _ _ | .addReg _ _ | .sub _ _ | .rightShift _ _ | .subSelf _ _
  | .leftShift _ _ | .ifNeqReg _ _ | .loadI _ | .jumpV0 _ | .random _ _ | .display _ _ _ | .keyOpEq _ | .keyOpNeq _
  | .getDelay _ | .getKeyOp _ | .setDelay _ | .setSound _ | .addI _ | .loadFont _ | .bcd _ | .memDump _
  | .memLoad _ => true

end Sys2Proof
end

