-- ==== Sys2Proof/Decode.lean ====
section
/-! DEFINITION. The decoder and the encoder (spec/30_encoding.md R100–R112). The field positions and the bit patterns are
PRESUMED: the spec takes them from general knowledge (decision D1, assumption log 3). -/

namespace Sys2Proof

/-! ### The fields of a word (R8, R101) -/

/-- A register index, or a nibble, from its 4 bits. -/
def nibbleIndex (b : BitVec 4) : Fin 16 := ⟨b.toNat, b.isLt⟩

/-- The 4 bits of a register index, or of a nibble. -/
def nibbleBits (r : Fin 16) : BitVec 4 := BitVec.ofNat 4 r.val

/-- `f = w[15:12]`, the opcode family. -/
def fieldF (w : Word) : BitVec 4 := w.extractLsb' 12 4

/-- `x = w[11:8]`, the first register index. -/
def fieldX (w : Word) : Reg := nibbleIndex (w.extractLsb' 8 4)

/-- `y = w[7:4]`, the second register index. -/
def fieldY (w : Word) : Reg := nibbleIndex (w.extractLsb' 4 4)

/-- `n = w[3:0]`, the sprite height, or the selector of the families 5, 8 and 9. -/
def fieldN (w : Word) : Nibble := nibbleIndex (w.extractLsb' 0 4)

/-- `kk = w[7:0]`, the immediate byte, or the selector of the families E and F. -/
def fieldKK (w : Word) : Byte := w.extractLsb' 0 8

/-- `nnn = w[11:0]`, the address. -/
def fieldNNN (w : Word) : Addr := w.extractLsb' 0 12

/-! ### Byte order (R75, R100) -/

/-- The word whose more significant byte is `hi`: big-endian, the byte at the lower address first (R74, R75). -/
def wordOfBytes (hi lo : Byte) : Word := hi ++ lo

/-- The byte of a word that lies at the lower address (R75). -/
def highByte (w : Word) : Byte := w.extractLsb' 8 8

/-- The byte of a word that lies at the higher address (R75). -/
def lowByte (w : Word) : Byte := w.extractLsb' 0 8

/-! ### The decoder (R105) -/

/-- "`UnknownOpcode(w)` carries the whole word" (R105). -/
structure UnknownOpcode where
  word : Word
  deriving DecidableEq, Repr

/-- Family 0: `Clear`, `Return`, and `Sys(nnn)` for every other word (R105, decision D5). -/
def decodeFamily0 (w : Word) : Except UnknownOpcode Instr :=
  if w = 0x00E0#16 then .ok .clear
  else if w = 0x00EE#16 then .ok .ret
  else .ok (.sys (fieldNNN w))

/-- Family 5: `IfEqReg` when `n = 0` (R105, decision D4). -/
def decodeFamily5 (w : Word) : Except UnknownOpcode Instr :=
  if fieldN w = 0 then .ok (.ifEqReg (fieldX w) (fieldY w)) else .error ⟨w⟩

/-- Family 8, selected by the low nibble (R105). -/
def decodeFamily8 (w : Word) : Except UnknownOpcode Instr :=
  match (fieldN w).val with
  | 0x0 => .ok (.loadReg (fieldX w) (fieldY w))
  | 0x1 => .ok (.or (fieldX w) (fieldY w))
  | 0x2 => .ok (.and (fieldX w) (fieldY w))
  | 0x3 => .ok (.xor (fieldX w) (fieldY w))
  | 0x4 => .ok (.addReg (fieldX w) (fieldY w))
  | 0x5 => .ok (.sub (fieldX w) (fieldY w))
  | 0x6 => .ok (.rightShift (fieldX w) (fieldY w))
  | 0x7 => .ok (.subSelf (fieldX w) (fieldY w))
  | 0xE => .ok (.leftShift (fieldX w) (fieldY w))
  | _ => .error ⟨w⟩

/-- Family 9: `IfNeqReg` when `n = 0` (R105, decision D4). -/
def decodeFamily9 (w : Word) : Except UnknownOpcode Instr :=
  if fieldN w = 0 then .ok (.ifNeqReg (fieldX w) (fieldY w)) else .error ⟨w⟩

/-- Family E, selected by the low byte (R105). -/
def decodeFamilyE (w : Word) : Except UnknownOpcode Instr :=
  match (fieldKK w).toNat with
  | 0x9E => .ok (.keyOpEq (fieldX w))
  | 0xA1 => .ok (.keyOpNeq (fieldX w))
  | _ => .error ⟨w⟩

/-- Family F, selected by the low byte (R105). -/
def decodeFamilyF (w : Word) : Except UnknownOpcode Instr :=
  match (fieldKK w).toNat with
  | 0x07 => .ok (.getDelay (fieldX w))
  | 0x0A => .ok (.getKeyOp (fieldX w))
  | 0x15 => .ok (.setDelay (fieldX w))
  | 0x18 => .ok (.setSound (fieldX w))
  | 0x1E => .ok (.addI (fieldX w))
  | 0x29 => .ok (.loadFont (fieldX w))
  | 0x33 => .ok (.bcd (fieldX w))
  | 0x55 => .ok (.memDump (fieldX w))
  | 0x65 => .ok (.memLoad (fieldX w))
  | _ => .error ⟨w⟩

/-- R105: the top 4 bits select a family, then the low byte or low nibble sub-selects. Total and pure. All 16 families
are assigned (R106), so the last line is reached by no word. -/
def decode (w : Word) : Except UnknownOpcode Instr :=
  match (fieldF w).toNat with
  | 0x0 => decodeFamily0 w
  | 0x1 => .ok (.jump (fieldNNN w))
  | 0x2 => .ok (.call (fieldNNN w))
  | 0x3 => .ok (.ifEq (fieldX w) (fieldKK w))
  | 0x4 => .ok (.ifNeq (fieldX w) (fieldKK w))
  | 0x5 => decodeFamily5 w
  | 0x6 => .ok (.loadImm (fieldX w) (fieldKK w))
  | 0x7 => .ok (.add (fieldX w) (fieldKK w))
  | 0x8 => decodeFamily8 w
  | 0x9 => decodeFamily9 w
  | 0xA => .ok (.loadI (fieldNNN w))
  | 0xB => .ok (.jumpV0 (fieldNNN w))
  | 0xC => .ok (.random (fieldX w) (fieldKK w))
  | 0xD => .ok (.display (fieldX w) (fieldY w) (fieldN w))
  | 0xE => decodeFamilyE w
  | 0xF => decodeFamilyF w
  | _ => .error ⟨w⟩

/-- Why bytes do not decode. -/
inductive DecodeError where
  /-- Fewer than the 2 bytes of an instruction (R100). -/
  | truncated
  /-- The first two bytes are an illegal word (R111). -/
  | unknownOpcode (w : Word)
  deriving DecidableEq, Repr

/-- The instruction at the head of a byte stream, with the rest: every instruction is 2 bytes, big-endian (R100). -/
def decodeBytes : List Byte → Except DecodeError (Instr × List Byte)
  | hi :: lo :: rest =>
    match decode (wordOfBytes hi lo) with
    | .ok i => .ok (i, rest)
    | .error e => .error (.unknownOpcode e.word)
  | [_] => .error .truncated
  | [] => .error .truncated

/-! ### The encoder (R107) -/

/-- Format `A`: family and address (R102). -/
def formA (f : BitVec 4) (nnn : Addr) : Word := f ++ nnn

/-- Formats `XK` and `X`: family, register, byte or byte selector (R102). -/
def formXK (f : BitVec 4) (x : Reg) (kk : Byte) : Word := f ++ nibbleBits x ++ kk

/-- Formats `XY` and `XYN`: family, two registers, nibble or selector (R102). -/
def formXY (f : BitVec 4) (x y : Reg) (n : Nibble) : Word := f ++ nibbleBits x ++ nibbleBits y ++ nibbleBits n

/-- The word R107 builds for an instruction value, before the check of R109. -/
def Instr.word : Instr → Word
  | .clear => 0x00E0#16
  | .ret => 0x00EE#16
  | .sys nnn => formA 0x0 nnn
  | .jump nnn => formA 0x1 nnn
  | .call nnn => formA 0x2 nnn
  | .ifEq x kk => formXK 0x3 x kk
  | .ifNeq x kk => formXK 0x4 x kk
  | .ifEqReg x y => formXY 0x5 x y 0x0
  | .loadImm x kk => formXK 0x6 x kk
  | .add x kk => formXK 0x7 x kk
  | .loadReg x y => formXY 0x8 x y 0x0
  | .or x y => formXY 0x8 x y 0x1
  | .and x y => formXY 0x8 x y 0x2
  | .xor x y => formXY 0x8 x y 0x3
  | .addReg x y => formXY 0x8 x y 0x4
  | .sub x y => formXY 0x8 x y 0x5
  | .rightShift x y => formXY 0x8 x y 0x6
  | .subSelf x y => formXY 0x8 x y 0x7
  | .leftShift x y => formXY 0x8 x y 0xE
  | .ifNeqReg x y => formXY 0x9 x y 0x0
  | .loadI nnn => formA 0xA nnn
  | .jumpV0 nnn => formA 0xB nnn
  | .random x kk => formXK 0xC x kk
  | .display x y n => formXY 0xD x y n
  | .keyOpEq x => formXK 0xE x 0x9E
  | .keyOpNeq x => formXK 0xE x 0xA1
  | .getDelay x => formXK 0xF x 0x07
  | .getKeyOp x => formXK 0xF x 0x0A
  | .setDelay x => formXK 0xF x 0x15
  | .setSound x => formXK 0xF x 0x18
  | .addI x => formXK 0xF x 0x1E
  | .loadFont x => formXK 0xF x 0x29
  | .bcd x => formXK 0xF x 0x33
  | .memDump x => formXK 0xF x 0x55
  | .memLoad x => formXK 0xF x 0x65

/-- R107 with R109: the word of a well-formed instruction; an ill-formed `Sys` is refused. -/
def encode (i : Instr) : Option Word := if i.wf then some i.word else none

/-- The two bytes of an instruction as they lie in memory, the first at the lower address (R75, R100). -/
def Instr.bytes (i : Instr) : List Byte := [highByte i.word, lowByte i.word]

/-! ### `RawData` (R108) -/

/-- A value of the spec's instruction model: one of the 35 instructions, or the pseudo-instruction `RawData(w)`, which
is "never produced by `decode`, and … never executable" (R108). -/
inductive InstrModel where
  | instr (i : Instr)
  | rawData (w : Word)
  deriving DecidableEq, Repr

/-- R107 over the whole instruction model: `encode(RawData(w)) = w`. -/
def InstrModel.encode : InstrModel → Option Word
  | .instr i => Sys2Proof.encode i
  | .rawData w => some w

/-- What the disassembler makes of a word: its instruction, or `RawData(w)` where it does not decode (R108). -/
def disassembleWord (w : Word) : InstrModel :=
  match decode w with
  | .ok i => .instr i
  | .error e => .rawData e.word

/-! ### The opcode table -/

/-- A row of spec/opcode_table.json: its mnemonic, and the bits that its words have fixed. -/
structure OpcodeRow where
  mnemonic : String
  pattern : Word
  mask : Word
  deriving DecidableEq, Repr

/-- The row of each instruction, copied from the table. -/
def Instr.row : Instr → OpcodeRow
  | .clear => ⟨"cls", 0x00E0#16, 0xFFFF#16⟩
  | .ret => ⟨"ret", 0x00EE#16, 0xFFFF#16⟩
  | .sys _ => ⟨"sys_nnn", 0x0000#16, 0xF000#16⟩
  | .jump _ => ⟨"jp_nnn", 0x1000#16, 0xF000#16⟩
  | .call _ => ⟨"call_nnn", 0x2000#16, 0xF000#16⟩
  | .ifEq _ _ => ⟨"se_vx__kk", 0x3000#16, 0xF000#16⟩
  | .ifNeq _ _ => ⟨"sne_vx__kk", 0x4000#16, 0xF000#16⟩
  | .ifEqReg _ _ => ⟨"se_vx__vy", 0x5000#16, 0xF00F#16⟩
  | .loadImm _ _ => ⟨"ld_vx__kk", 0x6000#16, 0xF000#16⟩
  | .add _ _ => ⟨"add_vx__kk", 0x7000#16, 0xF000#16⟩
  | .loadReg _ _ => ⟨"ld_vx__vy", 0x8000#16, 0xF00F#16⟩
  | .or _ _ => ⟨"or_vx__vy", 0x8001#16, 0xF00F#16⟩
  | .and _ _ => ⟨"and_vx__vy", 0x8002#16, 0xF00F#16⟩
  | .xor _ _ => ⟨"xor_vx__vy", 0x8003#16, 0xF00F#16⟩
  | .addReg _ _ => ⟨"add_vx__vy", 0x8004#16, 0xF00F#16⟩
  | .sub _ _ => ⟨"sub_vx__vy", 0x8005#16, 0xF00F#16⟩
  | .rightShift _ _ => ⟨"shr_vx__vy", 0x8006#16, 0xF00F#16⟩
  | .subSelf _ _ => ⟨"subn_vx__vy", 0x8007#16, 0xF00F#16⟩
  | .leftShift _ _ => ⟨"shl_vx__vy", 0x800E#16, 0xF00F#16⟩
  | .ifNeqReg _ _ => ⟨"sne_vx__vy", 0x9000#16, 0xF00F#16⟩
  | .loadI _ => ⟨"ld_i__nnn", 0xA000#16, 0xF000#16⟩
  | .jumpV0 _ => ⟨"jp_v0__nnn", 0xB000#16, 0xF000#16⟩
  | .random _ _ => ⟨"rnd_vx__kk", 0xC000#16, 0xF000#16⟩
  | .display _ _ _ => ⟨"drw_vx__vy__n", 0xD000#16, 0xF000#16⟩
  | .keyOpEq _ => ⟨"skp_vx", 0xE09E#16, 0xF0FF#16⟩
  | .keyOpNeq _ => ⟨"sknp_vx", 0xE0A1#16, 0xF0FF#16⟩
  | .getDelay _ => ⟨"ld_vx__dt", 0xF007#16, 0xF0FF#16⟩
  | .getKeyOp _ => ⟨"ld_vx__k", 0xF00A#16, 0xF0FF#16⟩
  | .setDelay _ => ⟨"ld_dt__vx", 0xF015#16, 0xF0FF#16⟩
  | .setSound _ => ⟨"ld_st__vx", 0xF018#16, 0xF0FF#16⟩
  | .addI _ => ⟨"add_i__vx", 0xF01E#16, 0xF0FF#16⟩
  | .loadFont _ => ⟨"ld_f__vx", 0xF029#16, 0xF0FF#16⟩
  | .bcd _ => ⟨"ld_b__vx", 0xF033#16, 0xF0FF#16⟩
  | .memDump _ => ⟨"ld__i___vx", 0xF055#16, 0xF0FF#16⟩
  | .memLoad _ => ⟨"ld_vx___i", 0xF065#16, 0xF0FF#16⟩

/-- The low `nbits` bits of `w` as an instruction word, numbered as spec/opcode_table.json numbers them; the bits above
`nbits` are 0. -/
def tableWord (nbits w : Nat) : Word := BitVec.ofNat 16 (w % 2 ^ nbits)

/-- The instruction the decoder reads from an opcode-table word, laid out in memory big-endian (R75). -/
def decodeTableWord (nbits w : Nat) : Option Instr :=
  match decodeBytes [highByte (tableWord nbits w), lowByte (tableWord nbits w)] with
  | .ok (i, _) => some i
  | .error _ => none

end Sys2Proof
end

