-- ==== Sys2Proof/Machine/State.lean ====
section
/-! DEFINITION. The machine's state (spec/10_state.md R30–R44), the errors and the run component
(spec/60_exceptions.md R361–R366), and the state after reset (spec/70_reset_and_hazards.md R400, R402). Plain data. -/

namespace Sys2Proof.Machine

/-- Why the machine has stopped. The first five are the errors of R361. An instruction that raises one TAKES it: it
answers a next state whose `run` is `failed` of it (R363), and every later step of that run stops with it as its
`Host.Outcome.fault`. The sixth is the stop of a step after the designed halt. All are SAFE: the machine stops where the
spec says that no step occurs (R366). -/
inductive Fault where
  /-- Code 1: the fetched word does not decode. Raised by the step cycle (R150, R361). Safe. -/
  | unknownOpcode (w : Word)
  /-- Code 2: the word decodes to an instruction with no execution semantics. Raised by `Sys`, and by `RawData` where
  it is given to execute directly (R150, R151, R361). Safe. -/
  | unimplementedOpcode (w : Word) (i : InstrModel)
  /-- Code 3: `pc + 1 ≥ 4096` at fetch. Raised by the step cycle (R74, R361). Safe. -/
  | fetchOutOfBounds (pc : Word)
  /-- Code 4: a data address of 4096 or more, the lowest one the instruction would touch. Raised by `Display`, `BCD`,
  `MemDump` and `MemLoad` (R72, R73, R361). Safe. -/
  | memoryOutOfBounds (a : Nat)
  /-- Code 5: `Call` with a full return stack, under a finite `STACK_LIMIT`; never raised under the default (R154,
  R361). Safe. -/
  | stackOverflow (pc : Word)
  /-- No error of R361: raised by a step, a timer tick or a key event after the halting `Return`, where the spec says
  that none occurs (R366, R369). Safe. -/
  | runStopped
  deriving DecidableEq, Repr

/-- A meaning that the model lacks. No arm of `exec` uses it: every instruction has its meaning. -/
inductive Refusal where
  /-- An instruction not modelled yet, by its mnemonic. Raised by no arm of `exec`. Safe. -/
  | notModelled (mnemonic : String)
  deriving DecidableEq, Repr

/-- The `run` component of R44: the two-state machine of the source with the failed state after an error. -/
inductive RunState where
  /-- Steps may follow (the spec's `Running`). -/
  | running
  /-- After the designed halt (R364). "`Stop` is terminal." -/
  | stopped
  /-- After an error `e` (R363). Final (R365). -/
  | failed (e : Fault)
  deriving DecidableEq, Repr

/-- Memory as a list of (address, byte) pairs; an address not listed reads as its construction value. The form and
the operations are in Machine/Ops.lean. -/
abbrev Memory := List Host.Cell

/-- A cell of the framebuffer, by the index `x + 64·y` of R40. -/
abbrev PixelIndex := Fin 2048

/-- The framebuffer as the list of its lit cells. The form and the operations are in Machine/Ops.lean. -/
abbrev Framebuffer := List PixelIndex

end Sys2Proof.Machine

namespace Sys2Proof.Machine

/-- The complete engine state (R44), with one field more, the model's own `draws`. -/
structure State where
  /-- `V0`–`VF` (R30). -/
  V : Vector Byte 16
  /-- The address register `I` (R36). -/
  I : Word
  /-- The program counter (R33). -/
  pc : Word
  /-- `delay_timer` (R37). -/
  DT : Byte
  /-- `sound_timer` (R37). -/
  ST : Byte
  /-- The saved return addresses, the most recently pushed FIRST (R39). -/
  stack : List Word
  /-- The framebuffer's lit cells (R40). -/
  fb : Framebuffer
  /-- `true` where the key is down (R41). -/
  keypad : Vector Bool 16
  /-- The dirty flag `should_render` (R42). -/
  shouldRender : Bool
  /-- The 4096 bytes of memory (R43, R70). -/
  memory : Memory
  /-- `run` (R44). -/
  run : RunState
  /-- The model's own: how many bytes `Random` has drawn. The next draw is `Config.randomByte draws`. Assumption
  log 1. -/
  draws : Nat
  deriving DecidableEq, Repr

/-- The machine right after construction, with no program loaded (R400, R402): every register 0, `pc` at 0x200, the
font at 0x000–0x04F and zeros elsewhere (memory lists nothing). The zeros are the spec's decision D19; `draws := 0` is a
DESIGN CHOICE (assumption log 1). -/
def State.reset : State where
  V := Vector.replicate 16 0#8
  I := 0#16
  pc := BitVec.ofNat 16 Config.loadAddress
  DT := 0#8
  ST := 0#8
  stack := []
  fb := []
  keypad := Vector.replicate 16 false
  shouldRender := false
  memory := []
  run := .running
  draws := 0

end Sys2Proof.Machine
end

