-- ==== Sys2Proof/Machine/Ops.lean ====
section
/-! DEFINITION. The named operations over memory, registers, stack, framebuffer and keypad; taking an error; fetching an
instruction word; the step cycle. -/

namespace Sys2Proof.Machine

/-! ### Memory (spec/20_memory.md) -/

/-- What an address that memory does not list reads as: its construction value, the font at 0x000–0x04F and 0 elsewhere
(R71, R400, R401). -/
def Memory.unlisted (a : Nat) : Byte := Config.font.getD a 0#8

/-- The canonical form: addresses exist and rise strictly, and no entry equals what its address reads as unlisted. -/
abbrev Memory.wf (m : Memory) : Prop :=
  m.Pairwise (fun c d => c.1 < d.1) ∧ ∀ c ∈ m, c.1 < Config.memSize ∧ c.2 ≠ Memory.unlisted c.1

/-- The byte at an address: `memory[a]` (R72). Reads have no side effects. -/
def Memory.read : Memory → Nat → Byte
  | [], a => Memory.unlisted a
  | c :: m, a => if c.1 = a then c.2 else Memory.read m a

/-- Memory without its entry for an address. -/
def Memory.erase (m : Memory) (a : Nat) : Memory := m.filter (fun c => c.1 != a)

/-- Memory with one more entry, placed before the first entry of a larger address. -/
def Memory.insert (c : Host.Cell) : Memory → Memory
  | [] => [c]
  | d :: m => if c.1 < d.1 then c :: d :: m else d :: Memory.insert c m

/-- `memory[a] <- v` (R73): every address is writable, the font and the program among them. -/
def Memory.write (m : Memory) (a : Nat) (v : Byte) : Memory :=
  if v = Memory.unlisted a then m.erase a else (m.erase a).insert (a, v)

/-- Bytes written at ascending addresses from `a` on. -/
def Memory.store : Memory → Nat → List Byte → Memory
  | m, _, [] => m
  | m, a, v :: vs => Memory.store (m.write a v) (a + 1) vs

/-- Whether the `count` bytes from `a` on all lie in memory. An access of no byte always does (R72, R73, R291). -/
def inRange (a count : Nat) : Bool := count == 0 || a + count ≤ Config.memSize

/-- The lowest address of 4096 or more that an access from `a` on would touch (R361): `max(a, 4096)`. -/
def firstOutside (a : Nat) : Nat := max a Config.memSize

/-- `Fetch` from memory (R74): the big-endian word at `pc`, or none where `pc + 1 ≥ 4096`. An odd `pc` is fetched like
any other (R76). -/
def Memory.fetch (m : Memory) (pc : Nat) : Option Word :=
  if pc + 1 < Config.memSize then some (wordOfBytes (m.read pc) (m.read (pc + 1))) else none

/-- `Fetch(pc)` of a state (R74). -/
def State.fetch (s : State) : Option Word := s.memory.fetch s.pc.toNat

/-! ### Registers -/

/-- `V[x]` (R10, R30). -/
def State.getV (s : State) (x : Reg) : Byte := s.V[x]

/-- `V[x] <- b` (R10, R30). No register is hardwired. -/
def State.setV (s : State) (x : Reg) (b : Byte) : State := { s with V := s.V.set x b }

/-- `I <- w`. -/
def State.setI (s : State) (w : Word) : State := { s with I := w }

/-- `pc <- w`. -/
def State.setPc (s : State) (w : Word) : State := { s with pc := w }

/-- `DT <- b`. -/
def State.setDT (s : State) (b : Byte) : State := { s with DT := b }

/-- `ST <- b`. -/
def State.setST (s : State) (b : Byte) : State := { s with ST := b }

/-- The return stack replaced. -/
def State.setStack (s : State) (l : List Word) : State := { s with stack := l }

/-- The framebuffer replaced, and the dirty flag set with it (R42: "set whenever the framebuffer is mutated"). -/
def State.setFb (s : State) (f : Framebuffer) : State := { s with fb := f, shouldRender := true }

/-- The keypad replaced. -/
def State.setKeypad (s : State) (k : Vector Bool 16) : State := { s with keypad := k }

/-- `should_render <- b`. -/
def State.setRender (s : State) (b : Bool) : State := { s with shouldRender := b }

/-- Memory replaced. -/
def State.setMemory (s : State) (m : Memory) : State := { s with memory := m }

/-- `run <- r`. -/
def State.setRun (s : State) (r : RunState) : State := { s with run := r }

/-- The counter of draws replaced. -/
def State.setDraws (s : State) (n : Nat) : State := { s with draws := n }

/-- `pc <- pc + 2`: past the instruction (R33, R160). -/
def State.advance (s : State) : State := s.setPc (s.pc + 2#16)

/-- The skip of R155: `pc <- pc + 2; if c then pc <- pc + 2`. -/
def State.skipIf (c : Bool) (s : State) : State := if c then s.advance.advance else s.advance

/-! ### Errors (spec/60_exceptions.md) -/

/-- Taking an error, the one shared operation (R363): the step writes nothing but `run <- Failed(e)`; `pc` still
addresses the failing instruction. There is no vector, no handler, no saved state (R360) and no return from it (R365). -/
def raise (e : Fault) (s : State) : Host.Outcome State Fault Refusal := .next (s.setRun (.failed e))

/-- An instruction that touches the `count` bytes from `I` on: `k` where they all lie in memory, `MemoryOutOfBounds`
otherwise, before anything is written (R73, R361). -/
def withMemory (count : Nat) (s : State) (k : State) : Host.Outcome State Fault Refusal :=
  if inRange s.I.toNat count then .next k else raise (.memoryOutOfBounds (firstOutside s.I.toNat)) s

/-- Why no step, no timer tick and no key event occurs in a run that has ended, none while it runs (R366, R369). -/
def RunState.ended : RunState → Option Fault
  | .running => none
  | .stopped => some .runStopped
  | .failed e => some e

/-- A transition that is allowed only while `run = Running` (R366, R369). -/
def whileRunning (s : State) (k : Host.Outcome State Fault Refusal) : Host.Outcome State Fault Refusal :=
  match s.run.ended with
  | none => k
  | some e => .fault e

/-- The step cycle (spec/40_control.md R150), in the order of R362: fetch, decode, execute by `ex`. Once `run` is not
`Running` no step occurs (R366). -/
def stepCycle (ex : Instr → State → Host.Outcome State Fault Refusal) (s : State) :
    Host.Outcome State Fault Refusal :=
  whileRunning s <|
    match s.fetch with
    | none => raise (.fetchOutOfBounds s.pc) s
    | some w =>
      match decode w with
      | .error e => raise (.unknownOpcode e.word) s
      | .ok i => ex i s

/-! ### Framebuffer (R40, spec/43_display.md) -/

/-- The canonical form: the lit cells rise strictly. -/
abbrev Framebuffer.wf (f : Framebuffer) : Prop := f.Pairwise (fun c d => c < d)

/-- `fb[c]`. -/
def Framebuffer.lit (f : Framebuffer) (c : PixelIndex) : Bool := f.contains c

/-- The list with one more lit cell, placed before the first larger one. -/
def Framebuffer.insert (c : PixelIndex) : Framebuffer → Framebuffer
  | [] => [c]
  | d :: f => if c < d then c :: d :: f else d :: Framebuffer.insert c f

/-- `fb[c] <- not fb[c]`. -/
def Framebuffer.toggle (f : Framebuffer) (c : PixelIndex) : Framebuffer :=
  if f.lit c then f.filter (fun d => d != c) else f.insert c

/-- The cell of `(px mod 64, py mod 32)` at index `x + 64·y` (R40); coordinates wrap on both axes (R291). -/
def pixelIndex (px py : Nat) : PixelIndex := ⟨px % 64 + 64 * (py % 32), by omega⟩

/-- Whether the pixel in column `px`, row `py` is lit. -/
def State.pixel (s : State) (px py : Nat) : Bool := s.fb.lit (pixelIndex px py)

/-- The cells that one sprite byte drawn from column `x0` in row `py` inverts, in column order: bit 7 is the leftmost pixel (R291, decision D10). -/
def spriteRow (b : Byte) (x0 py : Nat) : List PixelIndex :=
  ((List.range 8).filter (fun col => b.getLsbD (7 - col))).map (fun col => pixelIndex (x0 + col) py)

/-- The cells that a sprite of `n` rows read at `a` and drawn from `(x0, y0)` inverts, in the order of R291's loops. -/
def spriteCells (m : Memory) (a x0 y0 n : Nat) : List PixelIndex :=
  (List.range n).flatMap (fun row => spriteRow (m.read (a + row)) x0 (y0 + row))

/-- One cell of R291's inner loop: the collision is noted, then the cell is inverted. -/
def drawCell (p : Framebuffer × Bool) (c : PixelIndex) : Framebuffer × Bool := (p.1.toggle c, p.2 || p.1.lit c)

/-- The framebuffer after all the cells, and whether one of them was lit (R291). -/
def drawCells (f : Framebuffer) (cells : List PixelIndex) : Framebuffer × Bool := cells.foldl drawCell (f, false)

/-! ### Keypad arbiter (spec/44_keypad_timers.md R320) -/

/-- `lowest_key(keypad)`: the smallest key that is down, or none. -/
def lowestKey (k : Vector Bool 16) : Option Key := (List.finRange 16).find? (fun i => k[i])

end Sys2Proof.Machine
end

