-- ==== Sys2Proof/Machine/Operands.lean ====
section
/-! DEFINITION. The operand forms (spec/30_encoding.md R103): a register `x` or `y` is read and written by
`State.getV` and `State.setV` (Ops.lean); a byte `kk` is used as it is; an address `nnn` is zero-extended by `zextAddr`;
and the forms below. The only addressing mode is register-indirect through `I` with an ascending offset, `I` itself never
modified (spec/42_memory_index.md). -/

namespace Sys2Proof.Machine

/-- The effective address of the first byte an instruction touches through `I`, a natural number without truncation
(R72). -/
def State.base (s : State) : Nat := s.I.toNat

/-- The block of registers `V0` … `Vx`, inclusive and ascending (R254). -/
def State.block (s : State) (x : Reg) : List Byte := s.V.toList.take (x.val + 1)

/-- `V[k] <- memory[I + k]` for every `k` from 0 to `x` inclusive; the other registers stay (R255). -/
def State.loadBlock (s : State) (x : Reg) : State :=
  { s with V := Vector.ofFn (fun k : Fin 16 => if k ≤ x then s.memory.read (s.base + k.val) else s.V[k]) }

/-- Hundreds, tens and units of a byte, in the order they are stored (R253). -/
def bcdDigits (v : Byte) : List Byte :=
  [BitVec.ofNat 8 (v.toNat / 100), BitVec.ofNat 8 (v.toNat / 10 % 10), BitVec.ofNat 8 (v.toNat % 10)]

/-- The address of the font glyph of a value (R252): `5·d` for a hexadecimal digit (R71); for a larger value the open
parameter `FONT_ADDR_HIGH`, a free value (assumption log 2). -/
def glyphAddress (d : Byte) : Word :=
  if d ≤ 0xF#8 then BitVec.ofNat 16 (5 * d.toNat) else Config.fontAddrHigh d

/-- Whether the lowest key down, if any, is the key a register names: `lowest_key(keypad) == some V[x]` (R321, R322). -/
def State.keyMatches (s : State) (x : Reg) : Bool :=
  match lowestKey s.keypad with
  | some k => k.val == (s.getV x).toNat
  | none => false

end Sys2Proof.Machine
end

