-- ==== Sys2Proof/Machine/Flags.lean ====
section
/-! DEFINITION. The values of `VF`, the only flag (spec/10_state.md R31, R35; spec/41_alu.md R206–R213;
spec/43_display.md R291), and the order in which a result and its flag are written. -/

namespace Sys2Proof.Machine

/-- A flag of 1 or 0. -/
def flagByte (b : Bool) : Byte := if b then 1#8 else 0#8

/-- `AddReg`: 1 when the sum exceeds 255 (R207). -/
def carryFlag (a b : Byte) : Byte := flagByte (a.toNat + b.toNat > 255)

/-- `Sub` and `SubSelf`: 1 on borrow, when the subtrahend exceeds the minuend; 0 when equal or smaller (R208, R210;
spec/90_conflicts.md C1: the source's convention, not the common one). -/
def borrowFlag (minuend subtrahend : Byte) : Byte := flagByte (subtrahend > minuend)

/-- `RightShift`: the bit shifted out, 0 or 1 (R209). -/
def shiftedOutLow (a : Byte) : Byte := a &&& 0x01#8

/-- `LeftShift`: the bit shifted out, unmasked (0x00 or 0x80), or 0 or 1 under `SHL_VF_NORMALISE` (R211, C4). -/
def shiftedOutHigh (normalise : Bool) (a : Byte) : Byte :=
  if normalise then (a >>> 7) &&& 1#8 else a &&& 0x80#8

/-- `Display`: 1 on a collision; otherwise 0 under `DRW_VF_CLEAR`, and the old value without it (R291). -/
def collisionFlag (clear collision : Bool) (old : Byte) : Byte :=
  if collision then 1#8 else if clear then 0#8 else old

/-- The result and the flag of a flag-writing instruction, both computed before anything is written (R206). -/
def State.setResultFlag (s : State) (order : Config.VfWriteOrder) (x : Reg) (result flag : Byte) : State :=
  match order with
  | .flagLast => (s.setV x result).setV VF flag
  | .resultLast => (s.setV VF flag).setV x result

end Sys2Proof.Machine
end

