-- ==== Sys2Proof/Machine/Alu.lean ====
section
/-! DEFINITION. Register and ALU instructions (spec/41_alu.md R200–R213): every one ends with `pc <- pc + 2` and raises
no error. `exec…With` takes the parameters of R7. -/

namespace Sys2Proof.Machine

/-- `LoadImm(x, kk)` (R200). -/
def execLoadImm (x : Reg) (kk : Byte) (s : State) : Host.Outcome State Fault Refusal :=
  .next (s.setV x kk).advance

/-- `Add(x, kk)` (R201): wraps, writes no flag. -/
def execAdd (x : Reg) (kk : Byte) (s : State) : Host.Outcome State Fault Refusal :=
  .next (s.setV x (s.getV x + kk)).advance

/-- `LoadReg(x, y)` (R202). -/
def execLoadReg (x y : Reg) (s : State) : Host.Outcome State Fault Refusal :=
  .next (s.setV x (s.getV y)).advance

/-- `Or(x, y)` (R203). -/
def execOr (x y : Reg) (s : State) : Host.Outcome State Fault Refusal :=
  .next (s.setV x (s.getV x ||| s.getV y)).advance

/-- `And(x, y)` (R204). -/
def execAnd (x y : Reg) (s : State) : Host.Outcome State Fault Refusal :=
  .next (s.setV x (s.getV x &&& s.getV y)).advance

/-- `Xor(x, y)` (R205). -/
def execXor (x y : Reg) (s : State) : Host.Outcome State Fault Refusal :=
  .next (s.setV x (s.getV x ^^^ s.getV y)).advance

/-- `AddReg(x, y)` (R207). -/
def execAddRegWith (p : Config.Params) (x y : Reg) (s : State) : Host.Outcome State Fault Refusal :=
  .next (s.setResultFlag p.vfWriteOrder x (s.getV x + s.getV y) (carryFlag (s.getV x) (s.getV y))).advance

/-- `AddReg(x, y)` under the defaults of R7. -/
def execAddReg (x y : Reg) (s : State) : Host.Outcome State Fault Refusal := execAddRegWith Config.params x y s

/-- `Sub(x, y)` (R208). -/
def execSubWith (p : Config.Params) (x y : Reg) (s : State) : Host.Outcome State Fault Refusal :=
  .next (s.setResultFlag p.vfWriteOrder x (s.getV x - s.getV y) (borrowFlag (s.getV x) (s.getV y))).advance

/-- `Sub(x, y)` under the defaults of R7. -/
def execSub (x y : Reg) (s : State) : Host.Outcome State Fault Refusal := execSubWith Config.params x y s

/-- `RightShift(x, y)` (R209): `V[x]` is shifted, `y` is ignored. -/
def execRightShiftWith (p : Config.Params) (x _y : Reg) (s : State) : Host.Outcome State Fault Refusal :=
  .next (s.setResultFlag p.vfWriteOrder x (s.getV x >>> 1) (shiftedOutLow (s.getV x))).advance

/-- `RightShift(x, y)` under the defaults of R7. -/
def execRightShift (x y : Reg) (s : State) : Host.Outcome State Fault Refusal :=
  execRightShiftWith Config.params x y s

/-- `SubSelf(x, y)` (R210): "computes vy - vx and stores into vx". -/
def execSubSelfWith (p : Config.Params) (x y : Reg) (s : State) : Host.Outcome State Fault Refusal :=
  .next (s.setResultFlag p.vfWriteOrder x (s.getV y - s.getV x) (borrowFlag (s.getV y) (s.getV x))).advance

/-- `SubSelf(x, y)` under the defaults of R7. -/
def execSubSelf (x y : Reg) (s : State) : Host.Outcome State Fault Refusal := execSubSelfWith Config.params x y s

/-- `LeftShift(x, y)` (R211): `V[x]` is shifted, `y` is ignored. -/
def execLeftShiftWith (p : Config.Params) (x _y : Reg) (s : State) : Host.Outcome State Fault Refusal :=
  .next (s.setResultFlag p.vfWriteOrder x (s.getV x <<< 1) (shiftedOutHigh p.shlVfNormalise (s.getV x))).advance

/-- `LeftShift(x, y)` under the defaults of R7. -/
def execLeftShift (x y : Reg) (s : State) : Host.Outcome State Fault Refusal := execLeftShiftWith Config.params x y s

/-- `Random(x, kk)` (R212): the byte drawn is a free value, and each draw has its own (assumption log 1). -/
def execRandom (x : Reg) (kk : Byte) (s : State) : Host.Outcome State Fault Refusal :=
  .next ((s.setV x (Config.randomByte s.draws &&& kk)).setDraws (s.draws + 1)).advance

end Sys2Proof.Machine
end

