-- ==== Sys2Proof/Machine/Control.lean ====
section
/-! DEFINITION. Control transfer (spec/40_control.md R151–R159). Nothing checks a target when it is written; only the next
fetch does (R160). -/

namespace Sys2Proof.Machine

/-- What has no execution semantics, given to execute: `UnimplementedOpcode` of the word and the value (R150, R361). -/
def raiseUnimplemented (w : Word) (i : InstrModel) (s : State) : Host.Outcome State Fault Refusal :=
  raise (.unimplementedOpcode w i) s

/-- `Sys(nnn)` (R151): the legacy call is "never executable"; its effect is the error. -/
def execSys (nnn : Addr) (s : State) : Host.Outcome State Fault Refusal :=
  raiseUnimplemented (Instr.sys nnn).word (.instr (.sys nnn)) s

/-- `RawData(w)` given to execute directly (R150); `decode` never yields it (R108). -/
def execRawData (w : Word) (s : State) : Host.Outcome State Fault Refusal :=
  raiseUnimplemented w (.rawData w) s

/-- `Return` (R152): on an empty stack the designed halt, with `pc` unchanged (R364). -/
def execRet (s : State) : Host.Outcome State Fault Refusal :=
  match s.stack with
  | [] => .next (s.setRun .stopped)
  | saved :: rest => .next ((s.setStack rest).setPc (saved + 2#16))

/-- `Jump(nnn)` (R153). -/
def execJump (nnn : Addr) (s : State) : Host.Outcome State Fault Refusal := .next (s.setPc (zextAddr nnn))

/-- `Call(nnn)` (R154): pushes the call instruction's own address. -/
def execCallWith (p : Config.Params) (nnn : Addr) (s : State) : Host.Outcome State Fault Refusal :=
  if p.stackLimit = some s.stack.length then raise (.stackOverflow s.pc) s
  else .next ((s.setStack (s.pc :: s.stack)).setPc (zextAddr nnn))

/-- `Call(nnn)` under the defaults of R7. -/
def execCall (nnn : Addr) (s : State) : Host.Outcome State Fault Refusal := execCallWith Config.params nnn s

/-- `IfEq(x, kk)` (R155). -/
def execIfEq (x : Reg) (kk : Byte) (s : State) : Host.Outcome State Fault Refusal :=
  .next (s.skipIf (s.getV x == kk))

/-- `IfNeq(x, kk)` (R156). -/
def execIfNeq (x : Reg) (kk : Byte) (s : State) : Host.Outcome State Fault Refusal :=
  .next (s.skipIf (s.getV x != kk))

/-- `IfEqReg(x, y)` (R157). -/
def execIfEqReg (x y : Reg) (s : State) : Host.Outcome State Fault Refusal :=
  .next (s.skipIf (s.getV x == s.getV y))

/-- `IfNeqReg(x, y)` (R158). -/
def execIfNeqReg (x y : Reg) (s : State) : Host.Outcome State Fault Refusal :=
  .next (s.skipIf (s.getV x != s.getV y))

/-- `JumpV0(nnn)` (R159): no truncation to 12 bits. -/
def execJumpV0 (nnn : Addr) (s : State) : Host.Outcome State Fault Refusal :=
  .next (s.setPc (zextAddr nnn + zextByte (s.getV 0)))

end Sys2Proof.Machine
end

