-- ==== Sys2Proof/Machine/Display.lean ====
section
/-! DEFINITION. The display instructions (spec/43_display.md R290, R291). -/

namespace Sys2Proof.Machine

/-- `Clear` (R290). -/
def execClear (s : State) : Host.Outcome State Fault Refusal := .next (s.setFb []).advance

/-- The cells that `Display(x, y, n)` inverts, both coordinates read before `VF` is written (R291). -/
def State.spriteCells (s : State) (x y : Reg) (n : Nibble) : List PixelIndex :=
  Machine.spriteCells s.memory s.base (s.getV x).toNat (s.getV y).toNat n.val

/-- `Display(x, y, n)` (R291). -/
def execDisplayWith (p : Config.Params) (x y : Reg) (n : Nibble) (s : State) : Host.Outcome State Fault Refusal :=
  withMemory n.val s
    ((s.setFb (drawCells s.fb (s.spriteCells x y n)).1).setV VF
      (collisionFlag p.drwVfClear (drawCells s.fb (s.spriteCells x y n)).2 (s.getV VF))).advance

/-- `Display(x, y, n)` under the defaults of R7. -/
def execDisplay (x y : Reg) (n : Nibble) (s : State) : Host.Outcome State Fault Refusal :=
  execDisplayWith Config.params x y n s

end Sys2Proof.Machine
end

