-- ==== Sys2Proof/Machine/Index.lean ====
section
/-! DEFINITION. The index register and memory instructions (spec/42_memory_index.md R250–R255). Every address is checked
before anything is written (R73), and `I` is left unchanged by an access (R36). -/

namespace Sys2Proof.Machine

/-- `LoadI(nnn)` (R250). -/
def execLoadI (nnn : Addr) (s : State) : Host.Outcome State Fault Refusal :=
  .next (s.setI (zextAddr nnn)).advance

/-- `AddI(x)` (R251): modulo 65536; `VF` is not written. -/
def execAddI (x : Reg) (s : State) : Host.Outcome State Fault Refusal :=
  .next (s.setI (s.I + zextByte (s.getV x))).advance

/-- `LoadFont(x)` (R252). -/
def execLoadFont (x : Reg) (s : State) : Host.Outcome State Fault Refusal :=
  .next (s.setI (glyphAddress (s.getV x))).advance

/-- `BCD(x)` (R253). -/
def execBcd (x : Reg) (s : State) : Host.Outcome State Fault Refusal :=
  withMemory 3 s (s.setMemory (s.memory.store s.base (bcdDigits (s.getV x)))).advance

/-- `MemDump(x)` (R254). -/
def execMemDump (x : Reg) (s : State) : Host.Outcome State Fault Refusal :=
  withMemory (x.val + 1) s (s.setMemory (s.memory.store s.base (s.block x))).advance

/-- `MemLoad(x)` (R255). -/
def execMemLoad (x : Reg) (s : State) : Host.Outcome State Fault Refusal :=
  withMemory (x.val + 1) s (s.loadBlock x).advance

end Sys2Proof.Machine
end

