-- ==== Sys2Proof/Machine/KeysTimers.lean ====
section
/-! DEFINITION. The keypad and timer instructions (spec/44_keypad_timers.md R321–R326). -/

namespace Sys2Proof.Machine

/-- `KeyOpEq(x)` (R321): only the lowest key down is compared. -/
def execKeyOpEq (x : Reg) (s : State) : Host.Outcome State Fault Refusal := .next (s.skipIf (s.keyMatches x))

/-- `KeyOpNeq(x)` (R322): no key down skips. -/
def execKeyOpNeq (x : Reg) (s : State) : Host.Outcome State Fault Refusal := .next (s.skipIf (!s.keyMatches x))

/-- `GetKeyOp(x)` (R323): with no key down nothing happens and `pc` stays, so the next step fetches it again. -/
def execGetKeyOp (x : Reg) (s : State) : Host.Outcome State Fault Refusal :=
  match lowestKey s.keypad with
  | some k => .next (s.setV x (BitVec.ofNat 8 k.val)).advance
  | none => .next s

/-- `GetDelay(x)` (R324). -/
def execGetDelay (x : Reg) (s : State) : Host.Outcome State Fault Refusal := .next (s.setV x s.DT).advance

/-- `SetDelay(x)` (R325). -/
def execSetDelay (x : Reg) (s : State) : Host.Outcome State Fault Refusal := .next (s.setDT (s.getV x)).advance

/-- `SetSound(x)` (R326). -/
def execSetSound (x : Reg) (s : State) : Host.Outcome State Fault Refusal := .next (s.setST (s.getV x)).advance

end Sys2Proof.Machine
end

