-- ==== Sys2Proof/Machine/Dispatch.lean ====
section
/-! DEFINITION. One arm per instruction (spec/40_control.md R150: the dispatch is total, with no default branch). -/

namespace Sys2Proof.Machine

def exec (i : Instr) (s : State) : Host.Outcome State Fault Refusal :=
  match i with
  | .clear => Sys2Proof.Machine.execClear s
  | .ret => Sys2Proof.Machine.execRet s
  | .sys nnn => Sys2Proof.Machine.execSys nnn s
  | .jump nnn => Sys2Proof.Machine.execJump nnn s
  | .call nnn => Sys2Proof.Machine.execCall nnn s
  | .ifEq x kk => Sys2Proof.Machine.execIfEq x kk s
  | .ifNeq x kk => Sys2Proof.Machine.execIfNeq x kk s
  | .ifEqReg x y => Sys2Proof.Machine.execIfEqReg x y s
  | .loadImm x kk => Sys2Proof.Machine.execLoadImm x kk s
  | .add x kk => Sys2Proof.Machine.execAdd x kk s
  | .loadReg x y => Sys2Proof.Machine.execLoadReg x y s
  | .or x y => Sys2Proof.Machine.execOr x y s
  | .and x y => Sys2Proof.Machine.execAnd x y s
  | .xor x y => Sys2Proof.Machine.execXor x y s
  | .addReg x y => Sys2Proof.Machine.execAddReg x y s
  | .sub x y => Sys2Proof.Machine.execSub x y s
  | .rightShift x y => Sys2Proof.Machine.execRightShift x y s
  | .subSelf x y => Sys2Proof.Machine.execSubSelf x y s
  | .leftShift x y => Sys2Proof.Machine.execLeftShift x y s
  | .ifNeqReg x y => Sys2Proof.Machine.execIfNeqReg x y s
  | .loadI nnn => Sys2Proof.Machine.execLoadI nnn s
  | .jumpV0 nnn => Sys2Proof.Machine.execJumpV0 nnn s
  | .random x kk => Sys2Proof.Machine.execRandom x kk s
  | .display x y n => Sys2Proof.Machine.execDisplay x y n s
  | .keyOpEq x => Sys2Proof.Machine.execKeyOpEq x s
  | .keyOpNeq x => Sys2Proof.Machine.execKeyOpNeq x s
  | .getDelay x => Sys2Proof.Machine.execGetDelay x s
  | .getKeyOp x => Sys2Proof.Machine.execGetKeyOp x s
  | .setDelay x => Sys2Proof.Machine.execSetDelay x s
  | .setSound x => Sys2Proof.Machine.execSetSound x s
  | .addI x => Sys2Proof.Machine.execAddI x s
  | .loadFont x => Sys2Proof.Machine.execLoadFont x s
  | .bcd x => Sys2Proof.Machine.execBcd x s
  | .memDump x => Sys2Proof.Machine.execMemDump x s
  | .memLoad x => Sys2Proof.Machine.execMemLoad x s

end Sys2Proof.Machine
end

