-- ==== Sys2Proof/Machine/Step.lean ====
section
/-! DEFINITION. The step cycle (spec/40_control.md R150). -/

namespace Sys2Proof.Machine

/-- `step()` (R150) of the machine whose parameters have the defaults of R7. -/
def step (s : State) : Host.Outcome State Fault Refusal := stepCycle exec s

/-- The state with an opcode-table word stored where `step` fetches its next instruction: at `pc`, big-endian, in a
machine that runs. Where `pc` is above 0xFFE nothing can be fetched (R34), and nothing is stored. -/
def State.withFetchWord (s : State) (nbits w : Nat) : State :=
  if s.pc.toNat + 1 < Config.memSize then
    (s.setMemory (s.memory.store s.pc.toNat
      [highByte (tableWord nbits w), lowByte (tableWord nbits w)])).setRun .running
  else s.setRun .running

end Sys2Proof.Machine
end

