-- ==== Sys2Proof/Machine/Parameters.lean ====
section
/-! DEFINITION. The machine for every value of the parameters of R7 (spec/00_scope.md): execution and the step take them as
an argument. `exec` and `step` are the machine at the defaults. The two parameters without a default, `FONT_ADDR_HIGH` and
`RANDOM`, are free values (Config.lean) and so have every value already. -/

namespace Sys2Proof.Machine

/-- Executing an instruction under the parameters `p`: the seven instructions that depend on one (R39, R206, R211, R291)
take it, and every other is executed as it is. -/
def execWith (p : Config.Params) (i : Instr) (s : State) : Host.Outcome State Fault Refusal :=
  match i with
  | .call nnn => execCallWith p nnn s
  | .addReg x y => execAddRegWith p x y s
  | .sub x y => execSubWith p x y s
  | .rightShift x y => execRightShiftWith p x y s
  | .subSelf x y => execSubSelfWith p x y s
  | .leftShift x y => execLeftShiftWith p x y s
  | .display x y n => execDisplayWith p x y n s
  | .clear | .ret | .sys _ | .jump _ | .ifEq _ _ | .ifNeq _ _ | .ifEqReg _ _ | .loadImm _ _ | .add _ _ | .loadReg _ _
  | .or _ _ | .and _ _ | .xor _ _ | .ifNeqReg _ _ | .loadI _ | .jumpV0 _ | .random _ _ | .keyOpEq _ | .keyOpNeq _
  | .getDelay _ | .getKeyOp _ | .setDelay _ | .setSound _ | .addI _ | .loadFont _ | .bcd _ | .memDump _
  | .memLoad _ => exec i s

/-- `step()` (R150) under the parameters `p`. -/
def stepWith (p : Config.Params) (s : State) : Host.Outcome State Fault Refusal := stepCycle (execWith p) s

/-- The machine under the parameters `p`, behind Host/Core.lean. -/
def coreWith (p : Config.Params) : Host.Core :=
  { State := State, Fault := Fault, Refusal := Refusal, step := stepWith p, reset := State.reset }

end Sys2Proof.Machine
end

