-- ==== Sys2Proof/Machine/HostActions.lean ====
section
/-! DEFINITION. What the host (the driver) does to the engine (spec/60_exceptions.md R369–R374): construction with a program
(spec/70_reset_and_hazards.md R400), the timer tick (spec/44_keypad_timers.md R327), key events, clearing the dirty flag,
and observation. Each action is atomic and falls between steps (R79, R369), in any order and number (R369, R410). -/

namespace Sys2Proof.Machine

/-- `construct(blob)` (R400): the reset state with the program at 0x200. A program of more than 3584 bytes does not fit
and is refused, with no state (decision D20). -/
def construct (blob : List Byte) : Option State :=
  if blob.length ≤ Config.memSize - Config.loadAddress then
    some (State.reset.setMemory (State.reset.memory.store Config.loadAddress blob))
  else none

/-- `t - 1` while `t > 0`: "must never underflow" (R327). -/
def countDown (t : Byte) : Byte := if t > 0#8 then t - 1#8 else t

/-- `decrement_registers()` (R327): changes nothing but the two timers; only while `run = Running`. -/
def tick (s : State) : Host.Outcome State Fault Refusal :=
  whileRunning s (.next ((s.setST (countDown s.ST)).setDT (countDown s.DT)))

/-- `key_down(k)` (R372), only while `run = Running` (decision D34). -/
def keyDown (k : Key) (s : State) : Host.Outcome State Fault Refusal :=
  whileRunning s (.next (s.setKeypad (s.keypad.set k true)))

/-- `key_up(k)` (R372), only while `run = Running` (decision D34). -/
def keyUp (k : Key) (s : State) : Host.Outcome State Fault Refusal :=
  whileRunning s (.next (s.setKeypad (s.keypad.set k false)))

/-- `clear_render()` (R373), at any time. -/
def clearRender (s : State) : Host.Outcome State Fault Refusal := .next (s.setRender false)

/-- The sound signal (R328): `ST > 0`. -/
def State.sound (s : State) : Bool := s.ST > 0#8

/-- What the host observes (R374), at any time. The outcome of the last step is the `run` component: `running` is
`Continue`, `stopped` is `Stop`, `failed e` is `Error(e)` (R11). -/
structure Observation where
  framebuffer : Framebuffer
  shouldRender : Bool
  sound : Bool
  outcome : RunState
  deriving DecidableEq, Repr

/-- The observation of a state (R374): registers, `I`, memory and the stack are not in it. -/
def observe (s : State) : Observation where
  framebuffer := s.fb
  shouldRender := s.shouldRender
  sound := s.sound
  outcome := s.run

/-- The actions of R369 on a machine that is constructed. -/
inductive HostAction where
  | step
  | decrementRegisters
  | keyDown (k : Key)
  | keyUp (k : Key)
  | clearRender
  deriving DecidableEq, Repr

/-- One action of the host (R369) on a machine whose `step()` is `st`. -/
def actBy (st : State → Host.Outcome State Fault Refusal) (a : HostAction) (s : State) :
    Host.Outcome State Fault Refusal :=
  match a with
  | .step => st s
  | .decrementRegisters => tick s
  | .keyDown k => keyDown k s
  | .keyUp k => keyUp k s
  | .clearRender => clearRender s

/-- The host's actions one after another, in the order it chooses (R369), up to the first that is not allowed, on a
machine whose `step()` is `st`. -/
def runActionsBy (st : State → Host.Outcome State Fault Refusal) : List HostAction → State →
    Host.Outcome State Fault Refusal
  | [], s => .next s
  | a :: as, s =>
    match actBy st a s with
    | .next t => runActionsBy st as t
    | .fault e => .fault e
    | .refused r => .refused r

/-- One action of the host, at the defaults of R7. -/
def act (a : HostAction) (s : State) : Host.Outcome State Fault Refusal := actBy step a s

/-- One action of the host, under the parameters `p` of R7. -/
def actWith (p : Config.Params) (a : HostAction) (s : State) : Host.Outcome State Fault Refusal :=
  actBy (stepWith p) a s

/-- The host's actions one after another, at the defaults of R7. -/
def runActions (as : List HostAction) (s : State) : Host.Outcome State Fault Refusal := runActionsBy step as s

/-- The host's actions one after another, under the parameters `p` of R7. -/
def runActionsWith (p : Config.Params) (as : List HostAction) (s : State) : Host.Outcome State Fault Refusal :=
  runActionsBy (stepWith p) as s

end Sys2Proof.Machine
end

