-- ==== Sys2Proof/Safety.lean ====
section
/-! DEFINITION. The terms that claims use: what a transition keeps, the shapes of an instruction's result, the invariant of
a run, and which runs are safe. -/

namespace Sys2Proof.Machine

/-! ### Frames -/

/-- The parts of the state other than `pc` and the registers `V0`–`VF`. -/
inductive Part where
  | I | DT | ST | stack | fb | shouldRender | keypad | memory | run | draws
  deriving DecidableEq, Repr

/-- A part of the state is unchanged; memory is compared byte by byte. -/
def Keeps : Part → State → State → Prop
  | .I, s, t => t.I = s.I
  | .DT, s, t => t.DT = s.DT
  | .ST, s, t => t.ST = s.ST
  | .stack, s, t => t.stack = s.stack
  | .fb, s, t => t.fb = s.fb
  | .shouldRender, s, t => t.shouldRender = s.shouldRender
  | .keypad, s, t => t.keypad = s.keypad
  | .memory, s, t => ∀ a, t.memory.read a = s.memory.read a
  | .run, s, t => t.run = s.run
  | .draws, s, t => t.draws = s.draws

/-- Every part but those named is unchanged (`pc` and the registers are not spoken of). -/
def KeepsAllBut (ps : List Part) (s t : State) : Prop := ∀ p, p ∉ ps → Keeps p s t

/-- Every register but those named is unchanged. -/
def KeepsRegsBut (rs : List Reg) (s t : State) : Prop := ∀ r, r ∉ rs → t.getV r = s.getV r

/-! ### Results -/

/-- `V[x]` becomes `v`, `pc` advances by 2, and nothing else changes. -/
def SetsOnlyReg (x : Reg) (v : Nat) (s t : State) : Prop :=
  (t.getV x).toNat = v ∧ t.pc = s.pc + 2#16 ∧ KeepsRegsBut [x] s t ∧ KeepsAllBut [] s t

/-- `V[x]` becomes `v` and `VF` the flag, where `x = F` the flag alone (R206 under `FlagLast`); `pc` advances by 2, and
nothing else changes. -/
def SetsRegAndFlag (x : Reg) (v flag : Nat) (s t : State) : Prop :=
  (x ≠ VF → (t.getV x).toNat = v) ∧ (t.getV VF).toNat = flag ∧ t.pc = s.pc + 2#16 ∧
    KeepsRegsBut [x, VF] s t ∧ KeepsAllBut [] s t

/-- `I` becomes `v`, `pc` advances by 2, and nothing else changes. -/
def SetsOnlyI (v : Nat) (s t : State) : Prop :=
  t.I.toNat = v ∧ t.pc = s.pc + 2#16 ∧ KeepsRegsBut [] s t ∧ KeepsAllBut [.I] s t

/-- `pc` becomes `w`, and nothing else changes. -/
def SetsOnlyPc (w : Word) (s t : State) : Prop := t.pc = w ∧ KeepsRegsBut [] s t ∧ KeepsAllBut [] s t

/-- `pc` advances by 4 where the condition holds and by 2 where it does not, and nothing else changes (R155). -/
def SkipsWhen (c : Prop) (s t : State) : Prop :=
  (c → t.pc = s.pc + 4#16) ∧ (¬ c → t.pc = s.pc + 2#16) ∧ KeepsRegsBut [] s t ∧ KeepsAllBut [] s t

/-- An instruction is encoded as a number, and the word decodes to it. -/
def EncodesAs (i : Instr) (n : Nat) : Prop := ∃ w, encode i = some w ∧ w.toNat = n ∧ decode w = .ok i

/-! ### Drawing (R291) -/

/-- The sprite drawn by `Display(x, y, n)` has a 1 bit at column `px`, row `py` of the screen. -/
def SpriteBit (x y : Reg) (n : Nibble) (s : State) (px py : Nat) : Prop :=
  ∃ row col, row < n.val ∧ col < 8 ∧ (s.memory.read (s.I.toNat + row)).getLsbD (7 - col) = true ∧
    px = ((s.getV x).toNat + col) % 64 ∧ py = ((s.getV y).toNat + row) % 32

/-- A 1 bit of the sprite falls on a lit pixel. -/
def Collides (x y : Reg) (n : Nibble) (s : State) : Prop :=
  ∃ px py, px < 64 ∧ py < 32 ∧ SpriteBit x y n s px py ∧ s.pixel px py = true

/-- The effect of `Display(x, y, n)`; `clear` is `DRW_VF_CLEAR`. -/
def DrawsSprite (clear : Bool) (x y : Reg) (n : Nibble) (s t : State) : Prop :=
  (∀ px py, px < 64 → py < 32 → (t.pixel px py = true ↔
    (s.pixel px py = true ∧ ¬ SpriteBit x y n s px py) ∨ (s.pixel px py = false ∧ SpriteBit x y n s px py))) ∧
  (Collides x y n s → t.getV VF = 1#8) ∧
  (¬ Collides x y n s → t.getV VF = if clear = true then 0#8 else s.getV VF) ∧
  t.shouldRender = true ∧ t.pc = s.pc + 2#16 ∧ KeepsRegsBut [VF] s t ∧ KeepsAllBut [.fb, .shouldRender] s t

/-! ### Tables of the spec over all instructions -/

/-- How many bytes an instruction touches through `I` (20_memory.md R77). -/
def dataBytes : Instr → Nat
  | .display _ _ n => n.val
  | .bcd _ => 3
  | .memDump x | .memLoad x => x.val + 1
  | .clear | .ret | .sys _ | .jump _ | .call _ | .ifEq _ _ | .ifNeq _ _ | .ifEqReg _ _ | .loadImm _ _ | .add _ _
  | .loadReg _ _ | .or _ _ | .and _ _ | .xor _ _ | .addReg _ _ | .sub _ _ | .rightShift _ _ | .subSelf _ _
  | .leftShift _ _ | .ifNeqReg _ _ | .loadI _ | .jumpV0 _ | .random _ _ | .keyOpEq _ | .keyOpNeq _ | .getDelay _
  | .getKeyOp _ | .setDelay _ | .setSound _ | .addI _ | .loadFont _ => 0

/-- The registers an instruction names as a destination (R30, R31); the flag it writes implicitly is not among them. -/
def namedDestinations : Instr → List Reg
  | .loadImm x _ | .add x _ | .loadReg x _ | .or x _ | .and x _ | .xor x _ | .addReg x _ | .sub x _ | .rightShift x _
  | .subSelf x _ | .leftShift x _ | .random x _ | .getDelay x | .getKeyOp x => [x]
  | .memLoad x => (List.finRange 16).filter (fun r => r ≤ x)
  | .clear | .ret | .sys _ | .jump _ | .call _ | .ifEq _ _ | .ifNeq _ _ | .ifEqReg _ _ | .ifNeqReg _ _ | .loadI _
  | .jumpV0 _ | .display _ _ _ | .keyOpEq _ | .keyOpNeq _ | .setDelay _ | .setSound _ | .addI _ | .loadFont _
  | .bcd _ | .memDump _ => []

/-- The six instructions that write `VF` implicitly as a flag (R31). -/
def writesFlag : Instr → Bool
  | .addReg _ _ | .sub _ _ | .subSelf _ _ | .rightShift _ _ | .leftShift _ _ | .display _ _ _ => true
  | .clear | .ret | .sys _ | .jump _ | .call _ | .ifEq _ _ | .ifNeq _ _ | .ifEqReg _ _ | .loadImm _ _ | .add _ _
  | .loadReg _ _ | .or _ _ | .and _ _ | .xor _ _ | .ifNeqReg _ _ | .loadI _ | .jumpV0 _ | .random _ _ | .keyOpEq _
  | .keyOpNeq _ | .getDelay _ | .getKeyOp _ | .setDelay _ | .setSound _ | .addI _ | .loadFont _ | .bcd _
  | .memDump _ | .memLoad _ => false

/-- The instructions whose effect depends on a parameter of R7: `STACK_LIMIT` (R154), `VF_WRITE_ORDER` (R206),
`SHL_VF_NORMALISE` (R211), `DRW_VF_CLEAR` (R291). -/
def readsParameter : Instr → Bool
  | .call _ | .addReg _ _ | .sub _ _ | .rightShift _ _ | .subSelf _ _ | .leftShift _ _ | .display _ _ _ => true
  | .clear | .ret | .sys _ | .jump _ | .ifEq _ _ | .ifNeq _ _ | .ifEqReg _ _ | .loadImm _ _ | .add _ _ | .loadReg _ _
  | .or _ _ | .and _ _ | .xor _ _ | .ifNeqReg _ _ | .loadI _ | .jumpV0 _ | .random _ _ | .keyOpEq _ | .keyOpNeq _
  | .getDelay _ | .getKeyOp _ | .setDelay _ | .setSound _ | .addI _ | .loadFont _ | .bcd _ | .memDump _
  | .memLoad _ => false

/-- `pc + 4` where a skip's condition holds, else `pc + 2`. -/
def pcSkip (c : Bool) (s : State) : Word := if c then s.pc + 4#16 else s.pc + 2#16

/-- The `pc` after each instruction, for a step that does not raise (40_control.md R160). `Sys` always raises, and `pc`
then stays. -/
def pcAfter (i : Instr) (s : State) : Word :=
  match i with
  | .ret => match s.stack with
    | [] => s.pc
    | saved :: _ => saved + 2#16
  | .jump nnn | .call nnn => BitVec.ofNat 16 nnn.toNat
  | .jumpV0 nnn => BitVec.ofNat 16 (nnn.toNat + (s.getV 0).toNat)
  | .ifEq x kk => pcSkip (s.getV x == kk) s
  | .ifNeq x kk => pcSkip (s.getV x != kk) s
  | .ifEqReg x y => pcSkip (s.getV x == s.getV y) s
  | .ifNeqReg x y => pcSkip (s.getV x != s.getV y) s
  | .keyOpEq x => pcSkip (s.keyMatches x) s
  | .keyOpNeq x => pcSkip (!s.keyMatches x) s
  | .getKeyOp _ => if (lowestKey s.keypad).isSome then s.pc + 2#16 else s.pc
  | .sys _ => s.pc
  | .clear | .loadImm _ _ | .add _ _ | .loadReg _ _ | .or _ _ | .and _ _ | .xor _ _ | .addReg _ _ | .sub _ _
  | .rightShift _ _ | .subSelf _ _ | .leftShift _ _ | .loadI _ | .random _ _ | .display _ _ _ | .getDelay _
  | .setDelay _ | .setSound _ | .addI _ | .loadFont _ | .bcd _ | .memDump _ | .memLoad _ => s.pc + 2#16

/-! ### The invariant, and safe runs -/

/-- What every reachable state satisfies: memory and framebuffer in canonical form; `pc` at most 0x10FE (R34); every
saved return address the address of a fetched `Call`, at most 0xFFE (R152). -/
structure State.Inv (s : State) : Prop where
  memory : s.memory.wf
  fb : s.fb.wf
  pc : s.pc.toNat ≤ 0x10FE
  stack : ∀ a ∈ s.stack, a.toNat ≤ 0xFFE

/-- `t` is reached from `s` by some actions of the host (R369). -/
def Reaches (s t : State) : Prop := ∃ as : List HostAction, runActions as s = .next t

/-- `t` is reached from `s` by some actions of the host, on the machine under the parameters `p` of R7. -/
def ReachesWith (p : Config.Params) (s t : State) : Prop := ∃ as : List HostAction, runActionsWith p as s = .next t

/-- The return stack is no deeper than `STACK_LIMIT` allows (R39); without a limit it has any depth. -/
def StackWithinLimit (p : Config.Params) (s : State) : Prop := ∀ l, p.stackLimit = some l → s.stack.length ≤ l

/-- A run is safe where it has ended in no error (R361): it is running or has halted as designed (R364). -/
def State.Safe (s : State) : Prop := ∀ e, s.run ≠ .failed e

end Sys2Proof.Machine
end

