-- ==== Sys2Proof/Certificates/Slice0/Obligations.lean ====
section
/-! DEFINITION. The statements for the provers. Each docstring names the rules of spec/ it formalises, and where the rule
rests on a decision D<n> of spec/92_eei_decisions.md, the decision. Every `EncodesAs` clause states a row of R104 and R107,
whose patterns are PRESUMED (decision D1, assumption log 3). -/

open Sys2Proof Sys2Proof.Machine

/-! ### Decoder and encoder (spec/30_encoding.md) -/

/-- R110, its two laws and injectivity: decoding undoes encoding, encoding undoes decoding, no two words decode to one
instruction. -/
def Obligations.EncodeThenDecodeRoundTrip : Prop :=
  (∀ i : Instr, i.wf = true → ∃ w, encode i = some w ∧ decode w = .ok i) ∧
  (∀ (w : Word) (i : Instr), decode w = .ok i → encode i = some w) ∧
  (∀ (w w' : Word) (i : Instr), decode w = .ok i → decode w' = .ok i → w = w')

/-- R109 (the spec's decision D27): only `Sys(0x0E0)` and `Sys(0x0EE)` are ill-formed, and the encoder refuses exactly the
ill-formed; `RawData` is encoded as its word (R107). -/
def Obligations.EncodeRefusesExactlyTheIllFormedSys : Prop :=
  (∀ i : Instr, i.wf = false ↔ i = .sys 0x0E0#12 ∨ i = .sys 0x0EE#12) ∧
  (∀ i : Instr, encode i = none ↔ i.wf = false) ∧
  (∀ i : Instr, (InstrModel.instr i).encode = encode i) ∧
  (∀ w : Word, (InstrModel.rawData w).encode = some w)

/-- R105, R106, R111 (the spec's decisions D1, D4, D5; assumption log 3): the words that do not decode are those with an
unassigned selector in the families 5, 8, 9, E and F, and the verdict carries the whole word. -/
def Obligations.IllegalWordsAreTheUnassignedSelectors : Prop :=
  ∀ w : Word,
    ((∃ e, decode w = .error e) ↔
      (w.toNat / 4096 = 0x5 ∧ w.toNat % 16 ≠ 0) ∨
      (w.toNat / 4096 = 0x9 ∧ w.toNat % 16 ≠ 0) ∨
      (w.toNat / 4096 = 0x8 ∧ w.toNat % 16 ∈ [0x8, 0x9, 0xA, 0xB, 0xC, 0xD, 0xF]) ∨
      (w.toNat / 4096 = 0xE ∧ w.toNat % 256 ∉ [0x9E, 0xA1]) ∨
      (w.toNat / 4096 = 0xF ∧ w.toNat % 256 ∉ [0x07, 0x0A, 0x15, 0x18, 0x1E, 0x29, 0x33, 0x55, 0x65])) ∧
    (∀ e, decode w = .error e → e.word = w)

/-- R104 and spec/opcode_table.json: the word of a decoded instruction has the bits its table row fixes. -/
def Obligations.DecodedWordMatchesItsTableRow : Prop :=
  ∀ (w : Word) (i : Instr), decode w = .ok i → w &&& i.row.mask = i.row.pattern

/-- One word of each family, from 95_test_vectors.md 2.1, decodes to the instruction it stands for (assumption log 3). -/
def Obligations.SpecWordsDecodeAsWritten : Prop :=
  decode 0x00E0#16 = .ok .clear ∧ decode 0x00EE#16 = .ok .ret ∧ decode 0x00E1#16 = .ok (.sys 0x0E1#12) ∧
  decode 0x1ABC#16 = .ok (.jump 0xABC#12) ∧ decode 0x2ABC#16 = .ok (.call 0xABC#12) ∧
  decode 0x3A7F#16 = .ok (.ifEq 0xA 0x7F#8) ∧ decode 0x4A7F#16 = .ok (.ifNeq 0xA 0x7F#8) ∧
  decode 0x5AB0#16 = .ok (.ifEqReg 0xA 0xB) ∧ decode 0x6FFF#16 = .ok (.loadImm 0xF 0xFF#8) ∧
  decode 0x7001#16 = .ok (.add 0 0x01#8) ∧ decode 0x812E#16 = .ok (.leftShift 1 2) ∧
  decode 0x9AB0#16 = .ok (.ifNeqReg 0xA 0xB) ∧ decode 0xA123#16 = .ok (.loadI 0x123#12) ∧
  decode 0xB123#16 = .ok (.jumpV0 0x123#12) ∧ decode 0xC30F#16 = .ok (.random 3 0x0F#8) ∧
  decode 0xD125#16 = .ok (.display 1 2 5) ∧ decode 0xE5A1#16 = .ok (.keyOpNeq 5) ∧
  decode 0xF565#16 = .ok (.memLoad 5) ∧ decode 0x5AB1#16 = .error ⟨0x5AB1#16⟩

/-- R75, R100: an instruction is its two bytes, big-endian, whatever follows them; fewer than two bytes are none. -/
def Obligations.InstructionBytesDecodeFromAStream : Prop :=
  (∀ (i : Instr) (rest : List Byte), i.wf = true → decodeBytes (i.bytes ++ rest) = .ok (i, rest)) ∧
  (∀ i : Instr, i.bytes.map BitVec.toNat = [i.word.toNat / 256, i.word.toNat % 256]) ∧
  (∀ bs : List Byte, bs.length < 2 → decodeBytes bs = .error .truncated)

/-! ### The step cycle, errors and the end of a run (spec/20_memory.md, 40_control.md, 60_exceptions.md) -/

/-- R74 (the spec's decision D16) with the step cycle of R150: the word at `pc` is big-endian, and a step is what its
decoding says. -/
def Obligations.StepRunsTheDecodedInstruction : Prop :=
  ∀ s : State, s.run = .running →
    (4096 ≤ s.pc.toNat + 1 → step s = .next (s.setRun (.failed (.fetchOutOfBounds s.pc)))) ∧
    (∀ w : Word, s.pc.toNat + 1 < 4096 →
      w.toNat = (s.memory.read s.pc.toNat).toNat * 256 + (s.memory.read (s.pc.toNat + 1)).toNat →
      s.fetch = some w ∧
      (∀ e, decode w = .error e → step s = .next (s.setRun (.failed (.unknownOpcode w)))) ∧
      (∀ i, decode w = .ok i → step s = exec i s) ∧
      (∀ nnn, decode w = .ok (.sys nnn) →
        step s = .next (s.setRun (.failed (.unimplementedOpcode w (.instr (.sys nnn)))))))

/-- R363 (the spec's decisions D15, D24): an error step writes nothing but `run` (assumption log 6). -/
def Obligations.ErrorStepWritesNothingButRun : Prop :=
  ∀ (s t : State) (e : Fault), step s = .next t → t.run = .failed e → t = s.setRun (.failed e)

/-- R11, R150: while the machine runs every step answers; no step faults or is refused. That `Continue`, `Stop` and `Error(e)`
are the three values of the next state's `run` is the model's form (assumption log 6), and that `LoadFont` of a value above
15 answers, where D12 also allows a model to refuse, is the model's choice (assumption log 2). -/
def Obligations.StepAlwaysAnswersWhileRunning : Prop :=
  ∀ s : State, s.run = .running → ∃ t, step s = .next t

/-- R364: a step stops exactly where it executes a `Return` on an empty stack, and then it writes nothing but `run`. -/
def Obligations.StopExactlyAtReturnOnAnEmptyStack : Prop :=
  ∀ s t : State, step s = .next t →
    (t.run = .stopped ↔ s.fetch = some 0x00EE#16 ∧ s.stack = []) ∧ (t.run = .stopped → t = s.setRun .stopped)

/-- R366 (the spec's decision D24), with decision D34 for the keys: once a run has ended no step, no tick and no key event
occurs; the dirty flag may still be cleared (R369). That such an action answers no next state is the model's form
(assumption log 6). -/
def Obligations.EndedRunAdmitsNoTransition : Prop :=
  ∀ s : State, s.run ≠ .running →
    (∀ a : HostAction, a ≠ .clearRender → ∀ t, act a s ≠ .next t) ∧ act .clearRender s = .next (s.setRender false)

/-- R361, R362 (the spec's decisions D15, D16): which error a step ends in, in the order fetch, decode, executability, the
instruction's own check. -/
def Obligations.ErrorsFollowThePriorityOrder : Prop :=
  ∀ (s t : State) (e : Fault), step s = .next t →
    (t.run = .failed e ↔
      (4096 ≤ s.pc.toNat + 1 ∧ e = .fetchOutOfBounds s.pc) ∨
      (∃ w, s.fetch = some w ∧
        ((decode w = .error ⟨w⟩ ∧ e = .unknownOpcode w) ∨
         (∃ nnn, decode w = .ok (.sys nnn) ∧ e = .unimplementedOpcode w (.instr (.sys nnn))) ∨
         (∃ i, decode w = .ok i ∧ 0 < dataBytes i ∧ 4096 < s.I.toNat + dataBytes i ∧
           e = .memoryOutOfBounds (max s.I.toNat 4096)))))

/-! ### Invariants (spec/10_state.md R34) -/

/-- R34, R152 and the model's canonical forms (assumption log 9): a step from any state with the invariant keeps it. -/
def Obligations.StepKeepsTheInvariant : Prop :=
  ∀ s t : State, s.Inv → step s = .next t → t.Inv

/-- The invariant holds at reset and after construction with any program; reset is the construction with none (assumption
log 8). -/
def Obligations.ConstructionHasTheInvariant : Prop :=
  State.reset.Inv ∧ construct [] = some State.reset ∧
  ∀ (blob : List Byte) (s : State), construct blob = some s → s.Inv

/-- Every action of the host (R369) keeps the invariant: R34's bound on `pc`, R152's on the saved addresses, and the model's
canonical forms (assumption log 9). -/
def Obligations.HostActionsKeepTheInvariant : Prop :=
  ∀ (a : HostAction) (s t : State), s.Inv → act a s = .next t → t.Inv

/-- R34, the spec's derivation: in every run from construction, whatever the host does, `pc` never exceeds 0x10FE; and a
`pc` above 0xFFE cannot be fetched (decision D16). -/
def Obligations.EveryRunKeepsPcAtMost10FE : Prop :=
  (∀ (blob : List Byte) (s t : State), construct blob = some s → Reaches s t → t.pc.toNat ≤ 0x10FE) ∧
  (∀ s : State, s.run = .running → 0xFFE < s.pc.toNat →
    step s = .next (s.setRun (.failed (.fetchOutOfBounds s.pc))))

/-- An assumption of the model's form (assumption log 9): memories and framebuffers in canonical form that read alike are
equal. -/
def Obligations.CanonicalFormsAreDeterminedByTheirReads : Prop :=
  (∀ m m' : Memory, m.wf → m'.wf → (∀ a, m.read a = m'.read a) → m = m') ∧
  (∀ f f' : Framebuffer, f.wf → f'.wf → (∀ c, f.lit c = f'.lit c) → f = f')

/-! ### Who writes what (spec/10_state.md) -/

/-- R36: no instruction but `LoadI`, `AddI` and `LoadFont` writes `I`. -/
def Obligations.OnlyIndexInstructionsWriteI : Prop :=
  ∀ (i : Instr) (s t : State), exec i s = .next t → t.I ≠ s.I →
    (∃ nnn, i = .loadI nnn) ∨ (∃ x, i = .addI x) ∨ (∃ x, i = .loadFont x)

/-- R40, R42: only `Clear` and `Display` write the framebuffer or the dirty flag, and no step clears the flag. -/
def Obligations.OnlyClearAndDisplayWriteTheScreen : Prop :=
  (∀ (i : Instr) (s t : State), exec i s = .next t → (t.fb ≠ s.fb ∨ t.shouldRender ≠ s.shouldRender) →
    i = .clear ∨ (∃ x y n, i = .display x y n)) ∧
  (∀ s t : State, step s = .next t → s.shouldRender = true → t.shouldRender = true)

/-- R39: only `Call` and `Return` change the return stack, by one entry at its recent end. -/
def Obligations.OnlyCallAndReturnChangeTheStack : Prop :=
  ∀ (i : Instr) (s t : State), exec i s = .next t → t.stack ≠ s.stack →
    ((∃ nnn, i = .call nnn) ∧ t.stack = s.pc :: s.stack) ∨ (i = .ret ∧ ∃ a, s.stack = a :: t.stack)

/-- R37, R41: only `SetDelay` writes `DT`, only `SetSound` writes `ST`, and no step writes the keypad. -/
def Obligations.TimersAndKeypadAreWrittenOnlyAsStated : Prop :=
  (∀ (i : Instr) (s t : State), exec i s = .next t →
    (t.DT ≠ s.DT → ∃ x, i = .setDelay x) ∧ (t.ST ≠ s.ST → ∃ x, i = .setSound x)) ∧
  (∀ s t : State, step s = .next t → t.keypad = s.keypad)

/-- R73, R77: only `BCD` and `MemDump` change memory. -/
def Obligations.OnlyBcdAndMemDumpWriteMemory : Prop :=
  ∀ (i : Instr) (s t : State) (a : Nat), exec i s = .next t → t.memory.read a ≠ s.memory.read a →
    (∃ x, i = .bcd x ∨ i = .memDump x) ∧ s.I.toNat ≤ a ∧ a < s.I.toNat + dataBytes i ∧ a < 4096

/-- R30, R31 (with decision D22): a register changes only where the instruction names it as a destination, and `VF` also
where the instruction is one of the six that write a flag. -/
def Obligations.RegistersChangeOnlyWhereNamedOrFlag : Prop :=
  ∀ (i : Instr) (s t : State) (r : Reg), exec i s = .next t → t.getV r ≠ s.getV r →
    r ∈ namedDestinations i ∨ (r = VF ∧ writesFlag i = true)

/-- R160, the spec's derivation: the `pc` after every instruction that does not raise. -/
def Obligations.PcEffectOfEveryInstruction : Prop :=
  ∀ (i : Instr) (s t : State), exec i s = .next t → (∀ e, t.run ≠ .failed e) → t.pc = pcAfter i s

/-- R37, R42: no step depends on `ST` or on the dirty flag: changing them beforehand changes nothing else afterwards. For
`Random` this needs both runs to draw the same byte, which is the model's choice (assumption log 1: the byte is one function
of the counter `draws`, equal in both; R212 gives a free draw per step). -/
def Obligations.SoundTimerAndRenderFlagAreNeverRead : Prop :=
  ∀ (s t : State) (b : Byte) (r : Bool), step s = .next t →
    ∃ u, step ((s.setST b).setRender r) = .next u ∧
      (u.setST 0#8).setRender false = (t.setST 0#8).setRender false

/-! ### Register and ALU instructions (spec/41_alu.md) -/

/-- R200, R202 (the operation of R202 by the spec's decision D29); and R203, R204, R205 with D29 and the spec's decision D22 that
`VF` is not written (assumption log 13). -/
def Obligations.LoadsAndBitwiseResults : Prop :=
  ∀ (x y : Reg) (kk : Byte) (s : State),
    EncodesAs (.loadImm x kk) (0x6000 + x.val * 256 + kk.toNat) ∧
    EncodesAs (.loadReg x y) (0x8000 + x.val * 256 + y.val * 16) ∧
    EncodesAs (.or x y) (0x8001 + x.val * 256 + y.val * 16) ∧
    EncodesAs (.and x y) (0x8002 + x.val * 256 + y.val * 16) ∧
    EncodesAs (.xor x y) (0x8003 + x.val * 256 + y.val * 16) ∧
    (∃ t, exec (.loadImm x kk) s = .next t ∧ SetsOnlyReg x kk.toNat s t) ∧
    (∃ t, exec (.loadReg x y) s = .next t ∧ SetsOnlyReg x (s.getV y).toNat s t) ∧
    (∃ t, exec (.or x y) s = .next t ∧ SetsOnlyReg x ((s.getV x).toNat ||| (s.getV y).toNat) s t) ∧
    (∃ t, exec (.and x y) s = .next t ∧ SetsOnlyReg x ((s.getV x).toNat &&& (s.getV y).toNat) s t) ∧
    (∃ t, exec (.xor x y) s = .next t ∧ SetsOnlyReg x ((s.getV x).toNat ^^^ (s.getV y).toNat) s t)

/-- R201: the sum wraps, and `VF` is written only where it is the destination. -/
def Obligations.AddImmediateWrapsWithoutFlag : Prop :=
  ∀ (x : Reg) (kk : Byte) (s : State),
    EncodesAs (.add x kk) (0x7000 + x.val * 256 + kk.toNat) ∧
    ∃ t, exec (.add x kk) s = .next t ∧ SetsOnlyReg x (((s.getV x).toNat + kk.toNat) % 256) s t

/-- R207, with the default order of R206 where `x = F`, the spec's decision D8 (assumption log 7). -/
def Obligations.AddRegisterSetsCarry : Prop :=
  ∀ (x y : Reg) (s : State),
    EncodesAs (.addReg x y) (0x8004 + x.val * 256 + y.val * 16) ∧
    ∃ t, exec (.addReg x y) s = .next t ∧
      SetsRegAndFlag x (((s.getV x).toNat + (s.getV y).toNat) % 256)
        (if (s.getV x).toNat + (s.getV y).toNat > 255 then 1 else 0) s t

/-- R208, R210: `VF` is 1 exactly on a borrow; with the default order of R206 where `x = F`, the spec's decision D8 (assumption
log 7). -/
def Obligations.SubtractionsSetBorrow : Prop :=
  ∀ (x y : Reg) (s : State),
    EncodesAs (.sub x y) (0x8005 + x.val * 256 + y.val * 16) ∧
    EncodesAs (.subSelf x y) (0x8007 + x.val * 256 + y.val * 16) ∧
    (∃ t, exec (.sub x y) s = .next t ∧
      SetsRegAndFlag x (((s.getV x).toNat + 256 - (s.getV y).toNat) % 256)
        (if (s.getV y).toNat > (s.getV x).toNat then 1 else 0) s t) ∧
    (∃ t, exec (.subSelf x y) s = .next t ∧
      SetsRegAndFlag x (((s.getV y).toNat + 256 - (s.getV x).toNat) % 256)
        (if (s.getV x).toNat > (s.getV y).toNat then 1 else 0) s t)

/-- R209, and R211 under the default `SHL_VF_NORMALISE = false` (the spec's decisions D6, D7, D8; assumption logs 7, 13):
`V[x]` is shifted, `y` is ignored, and `VF` is the bit shifted out, which a left shift leaves unmasked (0x00 or 0x80). -/
def Obligations.ShiftsCaptureTheShiftedOutBit : Prop :=
  ∀ (x y : Reg) (s : State),
    EncodesAs (.rightShift x y) (0x8006 + x.val * 256 + y.val * 16) ∧
    EncodesAs (.leftShift x y) (0x800E + x.val * 256 + y.val * 16) ∧
    (∃ t, exec (.rightShift x y) s = .next t ∧
      SetsRegAndFlag x ((s.getV x).toNat / 2) ((s.getV x).toNat % 2) s t) ∧
    (∃ t, exec (.leftShift x y) s = .next t ∧
      SetsRegAndFlag x ((s.getV x).toNat * 2 % 256) (if (s.getV x).toNat ≥ 128 then 128 else 0) s t)

/-- R206 (the spec's decision D8) with the result and flag rules of R207 to R211, for every value of the parameters: under
`FlagLast` a destination `x = F` ends holding the flag, under `ResultLast` the result; elsewhere both are written. -/
def Obligations.WriteOrderDecidesOnlyDestinationVF : Prop :=
  ∀ (p : Config.Params) (x y : Reg) (s : State),
    ∀ c ∈ [
      (execAddRegWith p x y s, ((s.getV x).toNat + (s.getV y).toNat) % 256,
        if (s.getV x).toNat + (s.getV y).toNat > 255 then 1 else 0),
      (execSubWith p x y s, ((s.getV x).toNat + 256 - (s.getV y).toNat) % 256,
        if (s.getV y).toNat > (s.getV x).toNat then 1 else 0),
      (execSubSelfWith p x y s, ((s.getV y).toNat + 256 - (s.getV x).toNat) % 256,
        if (s.getV x).toNat > (s.getV y).toNat then 1 else 0),
      (execRightShiftWith p x y s, (s.getV x).toNat / 2, (s.getV x).toNat % 2),
      (execLeftShiftWith p x y s, (s.getV x).toNat * 2 % 256,
        if p.shlVfNormalise = true then (s.getV x).toNat / 128 else (s.getV x).toNat / 128 * 128)],
    ∃ t, c.1 = .next t ∧
      (x ≠ VF → (t.getV x).toNat = c.2.1 ∧ (t.getV VF).toNat = c.2.2) ∧
      (x = VF → p.vfWriteOrder = .flagLast → (t.getV VF).toNat = c.2.2) ∧
      (x = VF → p.vfWriteOrder = .resultLast → (t.getV VF).toNat = c.2.1) ∧
      t.pc = s.pc + 2#16 ∧ KeepsRegsBut [x, VF] s t ∧ KeepsAllBut [] s t

/-- R212 (the spec's decision D21): the byte drawn, a FREE VALUE, under the mask `kk`; the statement holds whatever it is, and
the next draw is another. The counter `draws` is the model's own (assumption log 1). -/
def Obligations.RandomMasksAFreeByte : Prop :=
  ∀ (x : Reg) (kk : Byte) (s : State),
    EncodesAs (.random x kk) (0xC000 + x.val * 256 + kk.toNat) ∧
    ∃ t, exec (.random x kk) s = .next t ∧
      t.getV x = Config.randomByte s.draws &&& kk ∧ t.draws = s.draws + 1 ∧
      t.pc = s.pc + 2#16 ∧ KeepsRegsBut [x] s t ∧ KeepsAllBut [.draws] s t

/-! ### Control transfer (spec/40_control.md) -/

/-- R153 and R159 with the spec's decisions D29 and D35 (assumption log 13): the target is written whole, with no truncation
to 12 bits, and nothing else changes. -/
def Obligations.JumpsGoToTheirTarget : Prop :=
  ∀ (nnn : Addr) (s : State),
    EncodesAs (.jump nnn) (0x1000 + nnn.toNat) ∧ EncodesAs (.jumpV0 nnn) (0xB000 + nnn.toNat) ∧
    (∃ t, exec (.jump nnn) s = .next t ∧ t.pc.toNat = nnn.toNat ∧ SetsOnlyPc t.pc s t) ∧
    (∃ t, exec (.jumpV0 nnn) s = .next t ∧ t.pc.toNat = nnn.toNat + (s.getV 0).toNat ∧ t.pc.toNat ≤ 0x10FE ∧
      SetsOnlyPc t.pc s t)

/-- R154, R39 (the spec's decision D18): `Call` pushes its own address; it raises `StackOverflow` only under a finite
`STACK_LIMIT` that the stack has reached, so never under the default (assumption log 7). -/
def Obligations.CallSavesItsOwnAddress : Prop :=
  ∀ (nnn : Addr) (s : State),
    EncodesAs (.call nnn) (0x2000 + nnn.toNat) ∧
    (∃ t, exec (.call nnn) s = .next t ∧ t.stack = s.pc :: s.stack ∧ t.pc.toNat = nnn.toNat ∧
      KeepsRegsBut [] s t ∧ KeepsAllBut [.stack] s t) ∧
    (∀ (p : Config.Params) (l : Nat), p.stackLimit = some l → s.stack.length = l →
      execCallWith p nnn s = .next (s.setRun (.failed (.stackOverflow s.pc)))) ∧
    (∀ p : Config.Params, p.stackLimit ≠ some s.stack.length → execCallWith p nnn s = exec (.call nnn) s)

/-- R152: `Return` pops the most recent entry and resumes 2 past it; on an empty stack it halts with `pc` unchanged. In a
reachable state the saved address is at most 0xFFE, so nothing wraps. -/
def Obligations.ReturnPopsOrHalts : Prop :=
  EncodesAs .ret 0x00EE ∧
  ∀ s : State,
    (s.stack = [] → exec .ret s = .next (s.setRun .stopped)) ∧
    (∀ saved rest, s.stack = saved :: rest →
      ∃ t, exec .ret s = .next t ∧ t.stack = rest ∧ t.pc = saved + 2#16 ∧
        (s.Inv → t.pc.toNat = saved.toNat + 2 ∧ t.pc.toNat ≤ 0x1000) ∧
        KeepsRegsBut [] s t ∧ KeepsAllBut [.stack] s t)

/-- R152 with R154: a `Return` at the depth a `Call` left resumes after that call, with the caller's stack. -/
def Obligations.CallThenReturnResumesAfterTheCall : Prop :=
  ∀ (nnn : Addr) (s t u : State), exec (.call nnn) s = .next t → u.stack = t.stack →
    ∃ v, exec .ret u = .next v ∧ v.pc = s.pc + 2#16 ∧ v.stack = s.stack

/-- R155, R156, R157, R158. -/
def Obligations.SkipsStepOverTheNextInstruction : Prop :=
  ∀ (x y : Reg) (kk : Byte) (s : State),
    EncodesAs (.ifEq x kk) (0x3000 + x.val * 256 + kk.toNat) ∧
    EncodesAs (.ifNeq x kk) (0x4000 + x.val * 256 + kk.toNat) ∧
    EncodesAs (.ifEqReg x y) (0x5000 + x.val * 256 + y.val * 16) ∧
    EncodesAs (.ifNeqReg x y) (0x9000 + x.val * 256 + y.val * 16) ∧
    (∃ t, exec (.ifEq x kk) s = .next t ∧ SkipsWhen ((s.getV x).toNat = kk.toNat) s t) ∧
    (∃ t, exec (.ifNeq x kk) s = .next t ∧ SkipsWhen ((s.getV x).toNat ≠ kk.toNat) s t) ∧
    (∃ t, exec (.ifEqReg x y) s = .next t ∧ SkipsWhen ((s.getV x).toNat = (s.getV y).toNat) s t) ∧
    (∃ t, exec (.ifNeqReg x y) s = .next t ∧ SkipsWhen ((s.getV x).toNat ≠ (s.getV y).toNat) s t)

/-- R151 (the spec's decision D5): the effect of `Sys` is the error `UnimplementedOpcode` of its word, with no other write. -/
def Obligations.SysAlwaysRaisesUnimplemented : Prop :=
  ∀ (nnn : Addr) (s : State),
    (nnn ≠ 0x0E0#12 → nnn ≠ 0x0EE#12 → EncodesAs (.sys nnn) nnn.toNat) ∧
    exec (.sys nnn) s =
      .next (s.setRun (.failed (.unimplementedOpcode (BitVec.ofNat 16 nnn.toNat) (.instr (.sys nnn)))))

/-- R153, R323, R366: a running machine at a jump to its own address, or at a key wait with no key down, takes any number
of steps, with no host action between them (assumption log 12), and is where it was: a hang, never `Stop`. -/
def Obligations.SelfJumpAndKeyWaitHang : Prop :=
  ∀ (k : Nat) (s : State) (w : Word), s.run = .running → s.fetch = some w →
    ((∃ nnn, decode w = .ok (.jump nnn) ∧ nnn.toNat = s.pc.toNat) ∨
      (∃ x, decode w = .ok (.getKeyOp x) ∧ ∀ j : Key, s.keypad[j] = false)) →
    Host.Core.run Sys2Proof.core k s = .next s

/-! ### Index register and memory instructions (spec/42_memory_index.md) -/

/-- R250 and R251 with the spec's decision D29, and its decision D14 that the sum wraps and `VF` is not written (assumption
log 13). -/
def Obligations.LoadIAndAddIResults : Prop :=
  ∀ (nnn : Addr) (x : Reg) (s : State),
    EncodesAs (.loadI nnn) (0xA000 + nnn.toNat) ∧ EncodesAs (.addI x) (0xF01E + x.val * 256) ∧
    (∃ t, exec (.loadI nnn) s = .next t ∧ SetsOnlyI nnn.toNat s t) ∧
    (∃ t, exec (.addI x) s = .next t ∧ SetsOnlyI ((s.I.toNat + (s.getV x).toNat) % 65536) s t)

/-- R252 for a digit; for a value above 15 the instruction completes with `FONT_ADDR_HIGH` (the spec's decision D12), a FREE
VALUE that the spec leaves open (the model's choice, assumption log 2): the statement holds whatever it is. -/
def Obligations.LoadFontResults : Prop :=
  ∀ (x : Reg) (s : State),
    EncodesAs (.loadFont x) (0xF029 + x.val * 256) ∧
    ∃ t, exec (.loadFont x) s = .next t ∧
      SetsOnlyI (if (s.getV x).toNat ≤ 0xF then 5 * (s.getV x).toNat else (Config.fontAddrHigh (s.getV x)).toNat) s t

/-- R253 (the spec's decisions D13, D15; assumption logs 13, 15). -/
def Obligations.BcdStoresDecimalDigits : Prop :=
  ∀ (x : Reg) (s : State),
    EncodesAs (.bcd x) (0xF033 + x.val * 256) ∧
    (s.I.toNat + 2 < 4096 → ∃ t, exec (.bcd x) s = .next t ∧
      (t.memory.read s.I.toNat).toNat = (s.getV x).toNat / 100 ∧
      (t.memory.read (s.I.toNat + 1)).toNat = (s.getV x).toNat / 10 % 10 ∧
      (t.memory.read (s.I.toNat + 2)).toNat = (s.getV x).toNat % 10 ∧
      (∀ a, a < s.I.toNat ∨ s.I.toNat + 2 < a → t.memory.read a = s.memory.read a) ∧
      t.pc = s.pc + 2#16 ∧ KeepsRegsBut [] s t ∧ KeepsAllBut [.memory] s t) ∧
    (4096 ≤ s.I.toNat + 2 →
      exec (.bcd x) s = .next (s.setRun (.failed (.memoryOutOfBounds (max s.I.toNat 4096)))))

/-- R254 (the spec's decisions D13, D15; assumption logs 13, 15). -/
def Obligations.MemDumpStoresTheRegisterBlock : Prop :=
  ∀ (x : Reg) (s : State),
    EncodesAs (.memDump x) (0xF055 + x.val * 256) ∧
    (s.I.toNat + x.val < 4096 → ∃ t, exec (.memDump x) s = .next t ∧
      (∀ k : Reg, k ≤ x → t.memory.read (s.I.toNat + k.val) = s.getV k) ∧
      (∀ a, a < s.I.toNat ∨ s.I.toNat + x.val < a → t.memory.read a = s.memory.read a) ∧
      t.pc = s.pc + 2#16 ∧ KeepsRegsBut [] s t ∧ KeepsAllBut [.memory] s t) ∧
    (4096 ≤ s.I.toNat + x.val →
      exec (.memDump x) s = .next (s.setRun (.failed (.memoryOutOfBounds (max s.I.toNat 4096)))))

/-- R255 (the spec's decisions D13, D15; assumption logs 13, 15). -/
def Obligations.MemLoadLoadsTheRegisterBlock : Prop :=
  ∀ (x : Reg) (s : State),
    EncodesAs (.memLoad x) (0xF065 + x.val * 256) ∧
    (s.I.toNat + x.val < 4096 → ∃ t, exec (.memLoad x) s = .next t ∧
      (∀ k : Reg, k ≤ x → t.getV k = s.memory.read (s.I.toNat + k.val)) ∧
      (∀ k : Reg, x < k → t.getV k = s.getV k) ∧
      t.pc = s.pc + 2#16 ∧ KeepsAllBut [] s t) ∧
    (4096 ≤ s.I.toNat + x.val →
      exec (.memLoad x) s = .next (s.setRun (.failed (.memoryOutOfBounds (max s.I.toNat 4096)))))

/-- R254 with R255: loading the block that was dumped, from the same `I` and memory, restores the dumped registers
whatever happened to them in between. -/
def Obligations.DumpThenLoadRestoresTheBlock : Prop :=
  ∀ (x : Reg) (s t u : State), s.I.toNat + x.val < 4096 → exec (.memDump x) s = .next t →
    u.I = t.I → (∀ a, u.memory.read a = t.memory.read a) →
    ∃ v, exec (.memLoad x) u = .next v ∧ ∀ k : Reg, k ≤ x → v.getV k = s.getV k

/-- R81: a store over the next instruction is what the next step fetches. -/
def Obligations.StoreIsSeenByTheNextFetch : Prop :=
  ∀ (x : Reg) (s t : State), 1 ≤ x.val → s.pc.toNat + 3 < 4096 → s.I.toNat = s.pc.toNat + 2 →
    s.I.toNat + x.val < 4096 → exec (.memDump x) s = .next t →
    ∃ w, t.fetch = some w ∧ w.toNat = (s.getV 0).toNat * 256 + (s.getV 1).toNat

/-! ### Display (spec/43_display.md) -/

/-- R290. -/
def Obligations.ClearPutsOutEveryPixel : Prop :=
  EncodesAs .clear 0x00E0 ∧
  ∀ s : State, ∃ t, exec .clear s = .next t ∧ (∀ px py, t.pixel px py = false) ∧ t.shouldRender = true ∧
    t.pc = s.pc + 2#16 ∧ KeepsRegsBut [] s t ∧ KeepsAllBut [.fb, .shouldRender] s t

/-- R291 (the spec's decisions D9, D10, D15, D33; assumption logs 7, 13, 15), for every value of the parameters; `exec` has
the default `DRW_VF_CLEAR`, true. -/
def Obligations.DisplayXorsTheSprite : Prop :=
  ∀ (x y : Reg) (n : Nibble) (s : State),
    EncodesAs (.display x y n) (0xD000 + x.val * 256 + y.val * 16 + n.val) ∧
    ((n.val = 0 ∨ s.I.toNat + n.val - 1 < 4096) →
      (∃ t, exec (.display x y n) s = .next t ∧ DrawsSprite true x y n s t) ∧
      (∀ p : Config.Params, ∃ t, execDisplayWith p x y n s = .next t ∧ DrawsSprite p.drwVfClear x y n s t)) ∧
    (0 < n.val → 4096 ≤ s.I.toNat + n.val - 1 →
      exec (.display x y n) s = .next (s.setRun (.failed (.memoryOutOfBounds (max s.I.toNat 4096)))) ∧
      ∀ p : Config.Params, execDisplayWith p x y n s =
        .next (s.setRun (.failed (.memoryOutOfBounds (max s.I.toNat 4096)))))

/-- R291 at the default `DRW_VF_CLEAR = true` (the spec's decision D9, assumption log 7): drawing a sprite twice at one place
restores every pixel, and the second draw collides exactly where a 1 bit of the sprite fell on an unlit pixel the first
time. Without the default a collision of the first draw would leave its 1 in `VF`. The coordinates are not in `VF`, which the
first draw writes; `DisplayXorsTheSprite` covers `x = F` and `y = F` for one draw. -/
def Obligations.DrawingTwiceRestoresTheScreen : Prop :=
  ∀ (x y : Reg) (n : Nibble) (s t : State), x ≠ VF → y ≠ VF → (n.val = 0 ∨ s.I.toNat + n.val ≤ 4096) →
    exec (.display x y n) s = .next t →
    ∃ u, exec (.display x y n) t = .next u ∧
      (∀ px py, px < 64 → py < 32 → u.pixel px py = s.pixel px py) ∧
      (u.getV VF = 1#8 ↔ ∃ px py, px < 64 ∧ py < 32 ∧ SpriteBit x y n s px py ∧ s.pixel px py = false)

/-! ### Keypad and timers (spec/44_keypad_timers.md) -/

/-- R320. -/
def Obligations.LowestKeyIsTheSmallestKeyDown : Prop :=
  ∀ keys : Vector Bool 16,
    (∀ k : Key, lowestKey keys = some k ↔ keys[k] = true ∧ ∀ j : Key, j < k → keys[j] = false) ∧
    (lowestKey keys = none ↔ ∀ j : Key, keys[j] = false)

/-- R321, R322 (the spec's decision D11): the register is compared with the lowest key down; no key down equals no register. -/
def Obligations.KeySkipsCompareTheLowestKey : Prop :=
  ∀ (x : Reg) (s : State),
    EncodesAs (.keyOpEq x) (0xE09E + x.val * 256) ∧ EncodesAs (.keyOpNeq x) (0xE0A1 + x.val * 256) ∧
    (∃ t, exec (.keyOpEq x) s = .next t ∧
      SkipsWhen (∃ k : Key, lowestKey s.keypad = some k ∧ k.val = (s.getV x).toNat) s t) ∧
    (∃ t, exec (.keyOpNeq x) s = .next t ∧
      SkipsWhen (¬ ∃ k : Key, lowestKey s.keypad = some k ∧ k.val = (s.getV x).toNat) s t)

/-- R323. -/
def Obligations.GetKeyTakesTheLowestKeyOrWaits : Prop :=
  ∀ (x : Reg) (s : State),
    EncodesAs (.getKeyOp x) (0xF00A + x.val * 256) ∧
    (∀ k : Key, lowestKey s.keypad = some k →
      ∃ t, exec (.getKeyOp x) s = .next t ∧ SetsOnlyReg x k.val s t) ∧
    (lowestKey s.keypad = none → exec (.getKeyOp x) s = .next s)

/-- R324, R325, R326, whose operation is the spec's decision D29 (assumption log 13). -/
def Obligations.TimerTransfers : Prop :=
  ∀ (x : Reg) (s : State),
    EncodesAs (.getDelay x) (0xF007 + x.val * 256) ∧ EncodesAs (.setDelay x) (0xF015 + x.val * 256) ∧
    EncodesAs (.setSound x) (0xF018 + x.val * 256) ∧
    (∃ t, exec (.getDelay x) s = .next t ∧ SetsOnlyReg x s.DT.toNat s t) ∧
    (∃ t, exec (.setDelay x) s = .next t ∧ t.DT = s.getV x ∧ t.pc = s.pc + 2#16 ∧
      KeepsRegsBut [] s t ∧ KeepsAllBut [.DT] s t) ∧
    (∃ t, exec (.setSound x) s = .next t ∧ t.ST = s.getV x ∧ t.pc = s.pc + 2#16 ∧
      KeepsRegsBut [] s t ∧ KeepsAllBut [.ST] s t)

/-- R327, R328: each timer counts down and stays at 0; the sound signal is `ST > 0`. -/
def Obligations.TickCountsDownWithoutUnderflow : Prop :=
  ∀ s : State, s.run = .running →
    ∃ t, tick s = .next t ∧ t.ST.toNat = s.ST.toNat - 1 ∧ t.DT.toNat = s.DT.toNat - 1 ∧ t.pc = s.pc ∧
      KeepsRegsBut [] s t ∧ KeepsAllBut [.DT, .ST] s t ∧ (t.sound = true ↔ 1 < s.ST.toNat)

/-! ### Host actions and construction (spec/60_exceptions.md, 70_reset_and_hazards.md) -/

/-- R372, while the machine runs (R369 with decision D34); and R373, the spec's own action (D23): a key event writes its key
alone, and clearing the dirty flag writes the flag alone. -/
def Obligations.HostWritesKeysAndRenderFlagAlone : Prop :=
  ∀ (k : Key) (s : State),
    (s.run = .running →
      (∃ t, keyDown k s = .next t ∧ (∀ j : Key, t.keypad[j] = if j = k then true else s.keypad[j]) ∧
        t.pc = s.pc ∧ KeepsRegsBut [] s t ∧ KeepsAllBut [.keypad] s t) ∧
      (∃ t, keyUp k s = .next t ∧ (∀ j : Key, t.keypad[j] = if j = k then false else s.keypad[j]) ∧
        t.pc = s.pc ∧ KeepsRegsBut [] s t ∧ KeepsAllBut [.keypad] s t)) ∧
    (∃ t, clearRender s = .next t ∧ t.shouldRender = false ∧ t.pc = s.pc ∧ KeepsRegsBut [] s t ∧
      KeepsAllBut [.shouldRender] s t)

/-- R400 (the spec's decisions D19, D20; assumption log 5): the program at 0x200, the font at 0, zeros elsewhere, `pc` at
0x200; a program over 3584 bytes is refused. The 80 font bytes are those of R401 (decision D3; PRESUMED, assumption log 4). -/
def Obligations.ConstructPlacesFontAndProgram : Prop :=
  ∀ blob : List Byte,
    (3584 < blob.length → construct blob = none) ∧
    (blob.length ≤ 3584 → ∃ s, construct blob = some s ∧
      (List.range 0x50).map s.memory.read =
        [0xF0, 0x90, 0x90, 0x90, 0xF0] ++ [0x20, 0x60, 0x20, 0x20, 0x70] ++ [0xF0, 0x10, 0xF0, 0x80, 0xF0] ++
        [0xF0, 0x10, 0xF0, 0x10, 0xF0] ++ [0x90, 0x90, 0xF0, 0x10, 0x10] ++ [0xF0, 0x80, 0xF0, 0x10, 0xF0] ++
        [0xF0, 0x80, 0xF0, 0x90, 0xF0] ++ [0xF0, 0x10, 0x20, 0x40, 0x40] ++ [0xF0, 0x90, 0xF0, 0x90, 0xF0] ++
        [0xF0, 0x90, 0xF0, 0x10, 0xF0] ++ [0xF0, 0x90, 0xF0, 0x90, 0x90] ++ [0xE0, 0x90, 0xE0, 0x90, 0xE0] ++
        [0xF0, 0x80, 0x80, 0x80, 0xF0] ++ [0xE0, 0x90, 0x90, 0x90, 0xE0] ++ [0xF0, 0x80, 0xF0, 0x80, 0xF0] ++
        [0xF0, 0x80, 0xF0, 0x80, 0x80] ∧
      (∀ a, 0x50 ≤ a → a < 0x200 → s.memory.read a = 0#8) ∧
      (∀ j, j < blob.length → s.memory.read (0x200 + j) = blob.getD j 0#8) ∧
      (∀ a, 0x200 + blob.length ≤ a → a < 4096 → s.memory.read a = 0#8) ∧
      (∀ x, s.getV x = 0#8) ∧ s.I = 0#16 ∧ s.pc = 0x200#16 ∧ s.DT = 0#8 ∧ s.ST = 0#8 ∧ s.stack = [] ∧
      (∀ px py, s.pixel px py = false) ∧ (∀ k : Key, s.keypad[k] = false) ∧ s.shouldRender = false ∧
      s.run = .running)

/-! ### The parameters (spec/00_scope.md R7) -/

/-- R7 (the spec's decisions D7, D8, D9, D18; assumption log 7): every step and every action of the host takes the parameters;
at their defaults they are `exec`, `step` and `act`; and only `Call`, the five flag-writing instructions and `Display` depend
on them. -/
def Obligations.ParametersReachEveryStep : Prop :=
  (∀ (i : Instr) (s : State), execWith Config.params i s = exec i s) ∧
  (∀ s : State, stepWith Config.params s = step s) ∧
  (∀ (a : HostAction) (s : State), actWith Config.params a s = act a s) ∧
  (∀ (p : Config.Params) (i : Instr) (s : State), readsParameter i = false → execWith p i s = exec i s) ∧
  (∀ (p : Config.Params) (x y : Reg) (n : Nibble) (nnn : Addr) (s : State),
    execWith p (.call nnn) s = execCallWith p nnn s ∧ execWith p (.addReg x y) s = execAddRegWith p x y s ∧
    execWith p (.sub x y) s = execSubWith p x y s ∧ execWith p (.subSelf x y) s = execSubSelfWith p x y s ∧
    execWith p (.rightShift x y) s = execRightShiftWith p x y s ∧
    execWith p (.leftShift x y) s = execLeftShiftWith p x y s ∧
    execWith p (.display x y n) s = execDisplayWith p x y n s) ∧
  (∀ (p : Config.Params) (s : State) (w : Word) (i : Instr), s.run = .running → s.fetch = some w →
    decode w = .ok i → stepWith p s = execWith p i s)

/-- R361, R362 (the spec's decisions D15, D16, D18) for every value of the parameters: which error a step ends in, with
`StackOverflow` exactly at a `Call` on a stack as deep as a finite `STACK_LIMIT`; and such a step writes nothing but `run`
(R363). That every step of a running machine answers is the model's form (assumption logs 2, 6). -/
def Obligations.ErrorsUnderEveryParameter : Prop :=
  (∀ (p : Config.Params) (s : State), s.run = .running → ∃ t, stepWith p s = .next t) ∧
  (∀ (p : Config.Params) (s t : State) (e : Fault), stepWith p s = .next t →
    (t.run = .failed e → t = s.setRun (.failed e)) ∧
    (t.run = .failed e ↔
      (4096 ≤ s.pc.toNat + 1 ∧ e = .fetchOutOfBounds s.pc) ∨
      (∃ w, s.fetch = some w ∧
        ((decode w = .error ⟨w⟩ ∧ e = .unknownOpcode w) ∨
         (∃ nnn, decode w = .ok (.sys nnn) ∧ e = .unimplementedOpcode w (.instr (.sys nnn))) ∨
         (∃ i, decode w = .ok i ∧ 0 < dataBytes i ∧ 4096 < s.I.toNat + dataBytes i ∧
           e = .memoryOutOfBounds (max s.I.toNat 4096)) ∨
         (∃ nnn, decode w = .ok (.call nnn) ∧ p.stackLimit = some s.stack.length ∧ e = .stackOverflow s.pc)))))

/-- R34, R39, R152 (the spec's decision D18) and the model's canonical forms (assumption log 9), for every value of the
parameters: a step keeps the invariant and a return stack within `STACK_LIMIT`, and so does every run from construction,
whatever the host does. -/
def Obligations.EveryParameterKeepsTheInvariantAndTheStackLimit : Prop :=
  (∀ (p : Config.Params) (s t : State), s.Inv → StackWithinLimit p s → stepWith p s = .next t →
    t.Inv ∧ StackWithinLimit p t) ∧
  (∀ (p : Config.Params) (blob : List Byte) (s t : State), construct blob = some s → ReachesWith p s t →
    t.Inv ∧ StackWithinLimit p t)
end

