-- ==== Sys2Proof/Laws/Encoding.lean ====
section
/-! SUPPORT. The fields of the words that the encoder builds (spec/30_encoding.md R101, R102, R107). -/

namespace Sys2Proof

@[simp] theorem nibbleIndex_nibbleBits (r : Fin 16) : nibbleIndex (nibbleBits r) = r := by
  ext; simp [nibbleIndex, nibbleBits]

@[simp] theorem nibbleBits_nibbleIndex (b : BitVec 4) : nibbleBits (nibbleIndex b) = b := by
  simp [nibbleIndex, nibbleBits]

theorem nibbleBits_val (r : Fin 16) : (nibbleBits r).toNat = r.val := by
  simp [nibbleBits]

/-! ### Zero-extension (R9, R103) -/

@[simp] theorem toNat_zextAddr (a : Addr) : (zextAddr a).toNat = a.toNat := by
  have := a.isLt
  rw [zextAddr, BitVec.toNat_setWidth]; omega

@[simp] theorem toNat_zextByte (b : Byte) : (zextByte b).toNat = b.toNat := by
  have := b.isLt
  rw [zextByte, BitVec.toNat_setWidth]; omega

/-! ### The formats as numbers -/

theorem toNat_formA (f : BitVec 4) (a : Addr) : (formA f a).toNat = f.toNat * 4096 + a.toNat := by
  rw [formA, BitVec.toNat_append, ← Nat.shiftLeft_add_eq_or_of_lt a.isLt, Nat.shiftLeft_eq]

theorem toNat_formXK (f : BitVec 4) (x : Reg) (kk : Byte) :
    (formXK f x kk).toNat = f.toNat * 4096 + x.val * 256 + kk.toNat := by
  rw [formXK, BitVec.toNat_append, ← Nat.shiftLeft_add_eq_or_of_lt kk.isLt, BitVec.toNat_append,
    ← Nat.shiftLeft_add_eq_or_of_lt (nibbleBits x).isLt, nibbleBits_val]
  simp only [Nat.shiftLeft_eq]; omega

theorem toNat_formXY (f : BitVec 4) (x y : Reg) (n : Nibble) :
    (formXY f x y n).toNat = f.toNat * 4096 + x.val * 256 + y.val * 16 + n.val := by
  rw [formXY, BitVec.toNat_append, ← Nat.shiftLeft_add_eq_or_of_lt (nibbleBits n).isLt, BitVec.toNat_append,
    ← Nat.shiftLeft_add_eq_or_of_lt (nibbleBits y).isLt, BitVec.toNat_append,
    ← Nat.shiftLeft_add_eq_or_of_lt (nibbleBits x).isLt]
  simp only [nibbleBits_val, Nat.shiftLeft_eq]; omega

/-! ### The fields as numbers -/

theorem toNat_fieldF (w : Word) : (fieldF w).toNat = w.toNat / 4096 := by
  have := w.isLt
  simp only [fieldF, BitVec.extractLsb'_toNat, Nat.shiftRight_eq_div_pow]; omega

theorem val_fieldX (w : Word) : (fieldX w).val = w.toNat / 256 % 16 := by
  simp only [fieldX, nibbleIndex, BitVec.extractLsb'_toNat, Nat.shiftRight_eq_div_pow]

theorem val_fieldY (w : Word) : (fieldY w).val = w.toNat / 16 % 16 := by
  simp only [fieldY, nibbleIndex, BitVec.extractLsb'_toNat, Nat.shiftRight_eq_div_pow]

theorem val_fieldN (w : Word) : (fieldN w).val = w.toNat % 16 := by
  simp only [fieldN, nibbleIndex, BitVec.extractLsb'_toNat, Nat.shiftRight_eq_div_pow, Nat.pow_zero, Nat.div_one]

theorem toNat_fieldKK (w : Word) : (fieldKK w).toNat = w.toNat % 256 := by
  simp [fieldKK, BitVec.extractLsb'_toNat]

theorem toNat_fieldNNN (w : Word) : (fieldNNN w).toNat = w.toNat % 4096 := by
  simp [fieldNNN, BitVec.extractLsb'_toNat]

/-- The word at two bytes: `hi·256 + lo` (R74). -/
theorem toNat_wordOfBytes (hi lo : Byte) : (wordOfBytes hi lo).toNat = hi.toNat * 256 + lo.toNat := by
  rw [wordOfBytes, BitVec.toNat_append, ← Nat.shiftLeft_add_eq_or_of_lt lo.isLt, Nat.shiftLeft_eq]

theorem toNat_highByte (w : Word) : (highByte w).toNat = w.toNat / 256 := by
  have := w.isLt
  simp only [highByte, BitVec.extractLsb'_toNat, Nat.shiftRight_eq_div_pow]; omega

theorem toNat_lowByte (w : Word) : (lowByte w).toNat = w.toNat % 256 := by
  simp only [lowByte, BitVec.extractLsb'_toNat, Nat.shiftRight_zero]

/-- A word laid out in bytes and read back is the word (R75). -/
@[simp] theorem wordOfBytes_bytes (w : Word) : wordOfBytes (highByte w) (lowByte w) = w := by
  apply BitVec.eq_of_toNat_eq
  rw [toNat_wordOfBytes, toNat_highByte, toNat_lowByte]; omega

/-! ### The fields of each format -/

section
variable (f : BitVec 4) (x y : Reg) (n : Nibble) (kk : Byte) (a : Addr)

@[simp] theorem fieldF_formA : fieldF (formA f a) = f := by
  apply BitVec.eq_of_toNat_eq; rw [toNat_fieldF, toNat_formA]; have := a.isLt; omega
@[simp] theorem fieldNNN_formA : fieldNNN (formA f a) = a := by
  apply BitVec.eq_of_toNat_eq; rw [toNat_fieldNNN, toNat_formA]; have := a.isLt; omega
@[simp] theorem fieldF_formXK : fieldF (formXK f x kk) = f := by
  apply BitVec.eq_of_toNat_eq; rw [toNat_fieldF, toNat_formXK]; have := kk.isLt; omega
@[simp] theorem fieldX_formXK : fieldX (formXK f x kk) = x := by
  apply Fin.ext; rw [val_fieldX, toNat_formXK]; have := kk.isLt; omega
@[simp] theorem fieldKK_formXK : fieldKK (formXK f x kk) = kk := by
  apply BitVec.eq_of_toNat_eq; rw [toNat_fieldKK, toNat_formXK]; have := kk.isLt; omega
@[simp] theorem fieldF_formXY : fieldF (formXY f x y n) = f := by
  apply BitVec.eq_of_toNat_eq; rw [toNat_fieldF, toNat_formXY]; omega
@[simp] theorem fieldX_formXY : fieldX (formXY f x y n) = x := by
  apply Fin.ext; rw [val_fieldX, toNat_formXY]; omega
@[simp] theorem fieldY_formXY : fieldY (formXY f x y n) = y := by
  apply Fin.ext; rw [val_fieldY, toNat_formXY]; omega
@[simp] theorem fieldN_formXY : fieldN (formXY f x y n) = n := by
  apply Fin.ext; rw [val_fieldN, toNat_formXY]; omega
end

/-! ### A word is each format of its own fields -/

theorem formA_fields (w : Word) : formA (fieldF w) (fieldNNN w) = w := by
  apply BitVec.eq_of_toNat_eq; rw [toNat_formA, toNat_fieldF, toNat_fieldNNN]; omega

theorem formXK_fields (w : Word) : formXK (fieldF w) (fieldX w) (fieldKK w) = w := by
  apply BitVec.eq_of_toNat_eq; rw [toNat_formXK, toNat_fieldF, val_fieldX, toNat_fieldKK]; omega

theorem formXY_fields (w : Word) : formXY (fieldF w) (fieldX w) (fieldY w) (fieldN w) = w := by
  apply BitVec.eq_of_toNat_eq; rw [toNat_formXY, toNat_fieldF, val_fieldX, val_fieldY, val_fieldN]; omega

end Sys2Proof
end

