-- ==== Sys2Proof/Laws/Framebuffer.lean ====
section
/-! SUPPORT. The framebuffer: a pixel after a toggle, and the canonical form, which every operation keeps. -/

namespace Sys2Proof.Machine.Framebuffer

@[simp] theorem lit_nil (c : PixelIndex) : lit [] c = false := rfl

theorem lit_iff {f : Framebuffer} {c : PixelIndex} : f.lit c = true ↔ c ∈ f := by simp [lit]

theorem mem_insert {c d : PixelIndex} {f : Framebuffer} : d ∈ insert c f ↔ d = c ∨ d ∈ f := by
  induction f with
  | nil => simp [insert]
  | cons e f ih =>
    unfold insert
    split
    · simp
    · simp only [List.mem_cons, ih]; tauto

/-- A toggle inverts its cell and leaves every other. -/
theorem lit_toggle (f : Framebuffer) (c d : PixelIndex) :
    (f.toggle c).lit d = if c = d then !f.lit d else f.lit d := by
  unfold toggle
  by_cases hd : c = d
  · subst hd
    rw [if_pos rfl]
    cases h : f.lit c
    · simp [lit_iff, mem_insert]
    · rw [if_pos rfl, Bool.not_true, Bool.eq_false_iff, Ne, lit_iff]; simp
  · have hd' : d ≠ c := fun e => hd e.symm
    rw [if_neg hd, Bool.eq_iff_iff]
    cases f.lit c <;> simp [lit_iff, mem_insert, hd']

theorem wf_nil : wf [] := List.Pairwise.nil

theorem wf_insert {f : Framebuffer} (h : f.wf) {c : PixelIndex} (hc : c ∉ f) : (insert c f).wf := by
  induction f with
  | nil => simp [insert, wf]
  | cons e f ih =>
    have h := List.pairwise_cons.1 h
    have hne : c ≠ e := fun he => hc (by simp [he])
    unfold insert
    split
    · rename_i hlt
      refine List.pairwise_cons.2 ⟨fun d hd => ?_, List.pairwise_cons.2 h⟩
      rcases List.mem_cons.1 hd with rfl | hd
      · exact hlt
      · exact hlt.trans (h.1 d hd)
    · rename_i hlt
      refine List.pairwise_cons.2 ⟨fun d hd => ?_, ih h.2 (fun hm => hc (by simp [hm]))⟩
      rcases mem_insert.1 hd with rfl | hd
      · exact lt_of_le_of_ne (not_lt.1 hlt) hne.symm
      · exact h.1 d hd

theorem wf_toggle {f : Framebuffer} (h : f.wf) (c : PixelIndex) : (f.toggle c).wf := by
  unfold toggle
  split
  · exact h.filter _
  · rename_i hc
    exact wf_insert h (fun hm => hc (lit_iff.2 hm))

theorem wf_drawCells {f : Framebuffer} (h : f.wf) (cells : List PixelIndex) : (wf (drawCells f cells).1) := by
  unfold drawCells
  suffices ∀ p : Framebuffer × Bool, p.1.wf → wf (cells.foldl drawCell p).1 from this (f, false) h
  induction cells with
  | nil => exact fun p hp => hp
  | cons c cells ih => exact fun p hp => ih _ (wf_toggle hp c)

@[simp] theorem drawCell_fst (p : Framebuffer × Bool) (c : PixelIndex) : (drawCell p c).1 = p.1.toggle c := rfl
@[simp] theorem drawCell_snd (p : Framebuffer × Bool) (c : PixelIndex) : (drawCell p c).2 = (p.2 || p.1.lit c) := rfl

/-- Two pixels have one index exactly where their wrapped coordinates agree (R40, R291). -/
theorem pixelIndex_eq_iff {a b c d : Nat} : pixelIndex a b = pixelIndex c d ↔ a % 64 = c % 64 ∧ b % 32 = d % 32 := by
  simp only [pixelIndex, Fin.mk.injEq]; omega

/-- Every index is that of one pixel of the screen. -/
theorem pixelIndex_surj (c : PixelIndex) : ∃ px py, px < 64 ∧ py < 32 ∧ c = pixelIndex px py :=
  ⟨c.val % 64, c.val / 64, by omega, by omega, Fin.ext (by simp only [pixelIndex]; omega)⟩

theorem drawCells_nil (f : Framebuffer) : drawCells f [] = (f, false) := rfl

end Sys2Proof.Machine.Framebuffer
end

