-- ==== Sys2Proof/Laws/Memory.lean ====
section
/-! SUPPORT. Memory: a read after a write, bytes stored in a row, and the canonical form, which every operation keeps. -/

namespace Sys2Proof.Machine.Memory

@[simp] theorem read_nil (a : Nat) : read [] a = unlisted a := rfl

theorem read_cons (c : Host.Cell) (m : Memory) (a : Nat) :
    read (c :: m) a = if c.1 = a then c.2 else read m a := rfl

theorem read_erase (m : Memory) (a b : Nat) : (erase m a).read b = if a = b then unlisted b else read m b := by
  induction m with
  | nil => simp [erase]
  | cons c m ih =>
    simp only [erase, List.filter_cons] at ih ⊢
    by_cases hc : c.1 = a
    · subst hc
      simp only [bne_self_eq_false, Bool.false_eq_true, if_false, ih, read_cons]
      split <;> simp_all
    · have : (c.1 != a) = true := by simpa using hc
      simp only [this, if_true, read_cons, ih]
      by_cases hb : c.1 = b
      · have : a ≠ b := fun h => hc (hb.trans h.symm)
        simp [hb, this]
      · simp [hb]

theorem read_insert (c : Host.Cell) (m : Memory) (b : Nat) (h : ∀ d ∈ m, d.1 ≠ c.1) :
    (insert c m).read b = if c.1 = b then c.2 else read m b := by
  induction m with
  | nil => rfl
  | cons d m ih =>
    have hd : d.1 ≠ c.1 := h d (by simp)
    have ih := ih (fun e he => h e (by simp [he]))
    unfold insert
    split
    · rfl
    · rw [read_cons, ih, read_cons]
      by_cases hb : d.1 = b
      · have : c.1 ≠ b := fun e => hd (hb.trans e.symm)
        simp [hb, this]
      · simp [hb]

theorem mem_erase {m : Memory} {a : Nat} {c : Host.Cell} : c ∈ erase m a ↔ c ∈ m ∧ c.1 ≠ a := by
  simp [erase]

/-- A read after a write (R73): the byte written at its address, the old byte at every other. -/
theorem read_write (m : Memory) (a b : Nat) (v : Byte) :
    (m.write a v).read b = if a = b then v else m.read b := by
  unfold write
  split
  · rename_i h
    rw [read_erase]
    split
    · rename_i e; rw [h, e]
    · rfl
  · rw [read_insert _ _ _ (fun d hd => (mem_erase.1 hd).2), read_erase]
    split <;> simp_all

@[simp] theorem store_nil (m : Memory) (a : Nat) : m.store a [] = m := rfl

theorem store_cons (m : Memory) (a : Nat) (v : Byte) (vs : List Byte) :
    m.store a (v :: vs) = (m.write a v).store (a + 1) vs := rfl

/-- A read after bytes were stored from `a` on: the byte stored there, or the old byte outside them. -/
theorem read_store (m : Memory) (a b : Nat) (vs : List Byte) :
    (m.store a vs).read b = if a ≤ b ∧ b < a + vs.length then vs.getD (b - a) 0 else m.read b := by
  induction vs generalizing m a with
  | nil => rw [if_neg (by simp)]; rfl
  | cons v vs ih =>
    rw [store_cons, ih, read_write, List.length_cons]
    by_cases hab : a = b
    · subst hab; simp
    · by_cases h : a + 1 ≤ b ∧ b < a + 1 + vs.length
      · have h2 : a ≤ b ∧ b < a + (vs.length + 1) := by omega
        obtain ⟨k, rfl⟩ : ∃ k, b = a + 1 + k := ⟨b - (a + 1), by omega⟩
        have e1 : a + 1 + k - (a + 1) = k := by omega
        have e2 : a + 1 + k - a = k + 1 := by omega
        rw [if_pos h, if_pos h2, e1, e2, List.getD_cons_succ]
      · have h2 : ¬ (a ≤ b ∧ b < a + (vs.length + 1)) := by omega
        rw [if_neg h, if_neg h2, if_neg hab]

theorem read_store_outside (m : Memory) (a b : Nat) (vs : List Byte) (h : b < a ∨ a + vs.length ≤ b) :
    (m.store a vs).read b = m.read b := by
  rw [read_store, if_neg (by omega)]

/-! ### The canonical form -/

theorem wf_nil : wf [] := by simp [wf]

theorem wf_erase {m : Memory} (h : m.wf) (a : Nat) : (m.erase a).wf :=
  ⟨h.1.filter _, fun c hc => h.2 c (mem_erase.1 hc).1⟩

theorem mem_insert {c d : Host.Cell} {m : Memory} : d ∈ insert c m ↔ d = c ∨ d ∈ m := by
  induction m with
  | nil => simp [insert]
  | cons e m ih =>
    unfold insert
    split
    · simp
    · simp only [List.mem_cons, ih]; tauto

theorem pairwise_insert {c : Host.Cell} {m : Memory} (h : m.Pairwise (fun c d => c.1 < d.1))
    (hc : ∀ d ∈ m, d.1 ≠ c.1) : (insert c m).Pairwise (fun c d => c.1 < d.1) := by
  induction m with
  | nil => simp [insert]
  | cons e m ih =>
    rw [List.pairwise_cons] at h
    unfold insert
    split
    · rename_i hlt
      refine List.pairwise_cons.2 ⟨fun d hd => ?_, List.pairwise_cons.2 h⟩
      rcases List.mem_cons.1 hd with rfl | hd
      · exact hlt
      · exact hlt.trans (h.1 d hd)
    · rename_i hlt
      have hne := hc e (by simp)
      refine List.pairwise_cons.2 ⟨fun d hd => ?_, ih h.2 (fun d hd => hc d (by simp [hd]))⟩
      rcases mem_insert.1 hd with rfl | hd
      · omega
      · exact h.1 d hd

theorem wf_write {m : Memory} (h : m.wf) {a : Nat} (ha : a < Config.memSize) (v : Byte) : (m.write a v).wf := by
  unfold write
  split
  · exact wf_erase h a
  · rename_i hv
    refine ⟨pairwise_insert (wf_erase h a).1 (fun d hd => (mem_erase.1 hd).2), fun c hc => ?_⟩
    rcases mem_insert.1 hc with rfl | hc
    · exact ⟨ha, hv⟩
    · exact (wf_erase h a).2 c hc

theorem wf_store {m : Memory} (h : m.wf) {a : Nat} {vs : List Byte} (ha : a + vs.length ≤ Config.memSize) :
    (m.store a vs).wf := by
  induction vs generalizing m a with
  | nil => exact h
  | cons v vs ih =>
    rw [List.length_cons] at ha
    exact ih (wf_write h (by omega) v) (by omega)

end Sys2Proof.Machine.Memory
end

