-- ==== Sys2Proof/Laws/State.lean ====
section
/-! SUPPORT. Each field after each update of the state: what is written, and that nothing else is. -/

namespace Sys2Proof.Machine.State

variable (s : State)

/-! ### `setV` -/

@[simp] theorem setV_V (x : Reg) (b : Byte) : (s.setV x b).V = s.V.set x b := rfl
@[simp] theorem setV_I (x : Reg) (b : Byte) : (s.setV x b).I = s.I := rfl
@[simp] theorem setV_pc (x : Reg) (b : Byte) : (s.setV x b).pc = s.pc := rfl
@[simp] theorem setV_DT (x : Reg) (b : Byte) : (s.setV x b).DT = s.DT := rfl
@[simp] theorem setV_ST (x : Reg) (b : Byte) : (s.setV x b).ST = s.ST := rfl
@[simp] theorem setV_stack (x : Reg) (b : Byte) : (s.setV x b).stack = s.stack := rfl
@[simp] theorem setV_fb (x : Reg) (b : Byte) : (s.setV x b).fb = s.fb := rfl
@[simp] theorem setV_keypad (x : Reg) (b : Byte) : (s.setV x b).keypad = s.keypad := rfl
@[simp] theorem setV_shouldRender (x : Reg) (b : Byte) : (s.setV x b).shouldRender = s.shouldRender := rfl
@[simp] theorem setV_memory (x : Reg) (b : Byte) : (s.setV x b).memory = s.memory := rfl
@[simp] theorem setV_run (x : Reg) (b : Byte) : (s.setV x b).run = s.run := rfl
@[simp] theorem setV_draws (x : Reg) (b : Byte) : (s.setV x b).draws = s.draws := rfl

/-! ### `setI` -/

@[simp] theorem setI_V (w : Word) : (s.setI w).V = s.V := rfl
@[simp] theorem setI_I (w : Word) : (s.setI w).I = w := rfl
@[simp] theorem setI_pc (w : Word) : (s.setI w).pc = s.pc := rfl
@[simp] theorem setI_DT (w : Word) : (s.setI w).DT = s.DT := rfl
@[simp] theorem setI_ST (w : Word) : (s.setI w).ST = s.ST := rfl
@[simp] theorem setI_stack (w : Word) : (s.setI w).stack = s.stack := rfl
@[simp] theorem setI_fb (w : Word) : (s.setI w).fb = s.fb := rfl
@[simp] theorem setI_keypad (w : Word) : (s.setI w).keypad = s.keypad := rfl
@[simp] theorem setI_shouldRender (w : Word) : (s.setI w).shouldRender = s.shouldRender := rfl
@[simp] theorem setI_memory (w : Word) : (s.setI w).memory = s.memory := rfl
@[simp] theorem setI_run (w : Word) : (s.setI w).run = s.run := rfl
@[simp] theorem setI_draws (w : Word) : (s.setI w).draws = s.draws := rfl
@[simp] theorem setI_getV (w : Word) (y : Reg) : (s.setI w).getV y = s.getV y := rfl

/-! ### `setPc` -/

@[simp] theorem setPc_V (w : Word) : (s.setPc w).V = s.V := rfl
@[simp] theorem setPc_I (w : Word) : (s.setPc w).I = s.I := rfl
@[simp] theorem setPc_pc (w : Word) : (s.setPc w).pc = w := rfl
@[simp] theorem setPc_DT (w : Word) : (s.setPc w).DT = s.DT := rfl
@[simp] theorem setPc_ST (w : Word) : (s.setPc w).ST = s.ST := rfl
@[simp] theorem setPc_stack (w : Word) : (s.setPc w).stack = s.stack := rfl
@[simp] theorem setPc_fb (w : Word) : (s.setPc w).fb = s.fb := rfl
@[simp] theorem setPc_keypad (w : Word) : (s.setPc w).keypad = s.keypad := rfl
@[simp] theorem setPc_shouldRender (w : Word) : (s.setPc w).shouldRender = s.shouldRender := rfl
@[simp] theorem setPc_memory (w : Word) : (s.setPc w).memory = s.memory := rfl
@[simp] theorem setPc_run (w : Word) : (s.setPc w).run = s.run := rfl
@[simp] theorem setPc_draws (w : Word) : (s.setPc w).draws = s.draws := rfl
@[simp] theorem setPc_getV (w : Word) (y : Reg) : (s.setPc w).getV y = s.getV y := rfl

/-! ### `setDT` -/

@[simp] theorem setDT_V (b : Byte) : (s.setDT b).V = s.V := rfl
@[simp] theorem setDT_I (b : Byte) : (s.setDT b).I = s.I := rfl
@[simp] theorem setDT_pc (b : Byte) : (s.setDT b).pc = s.pc := rfl
@[simp] theorem setDT_DT (b : Byte) : (s.setDT b).DT = b := rfl
@[simp] theorem setDT_ST (b : Byte) : (s.setDT b).ST = s.ST := rfl
@[simp] theorem setDT_stack (b : Byte) : (s.setDT b).stack = s.stack := rfl
@[simp] theorem setDT_fb (b : Byte) : (s.setDT b).fb = s.fb := rfl
@[simp] theorem setDT_keypad (b : Byte) : (s.setDT b).keypad = s.keypad := rfl
@[simp] theorem setDT_shouldRender (b : Byte) : (s.setDT b).shouldRender = s.shouldRender := rfl
@[simp] theorem setDT_memory (b : Byte) : (s.setDT b).memory = s.memory := rfl
@[simp] theorem setDT_run (b : Byte) : (s.setDT b).run = s.run := rfl
@[simp] theorem setDT_draws (b : Byte) : (s.setDT b).draws = s.draws := rfl
@[simp] theorem setDT_getV (b : Byte) (y : Reg) : (s.setDT b).getV y = s.getV y := rfl

/-! ### `setST` -/

@[simp] theorem setST_V (b : Byte) : (s.setST b).V = s.V := rfl
@[simp] theorem setST_I (b : Byte) : (s.setST b).I = s.I := rfl
@[simp] theorem setST_pc (b : Byte) : (s.setST b).pc = s.pc := rfl
@[simp] theorem setST_DT (b : Byte) : (s.setST b).DT = s.DT := rfl
@[simp] theorem setST_ST (b : Byte) : (s.setST b).ST = b := rfl
@[simp] theorem setST_stack (b : Byte) : (s.setST b).stack = s.stack := rfl
@[simp] theorem setST_fb (b : Byte) : (s.setST b).fb = s.fb := rfl
@[simp] theorem setST_keypad (b : Byte) : (s.setST b).keypad = s.keypad := rfl
@[simp] theorem setST_shouldRender (b : Byte) : (s.setST b).shouldRender = s.shouldRender := rfl
@[simp] theorem setST_memory (b : Byte) : (s.setST b).memory = s.memory := rfl
@[simp] theorem setST_run (b : Byte) : (s.setST b).run = s.run := rfl
@[simp] theorem setST_draws (b : Byte) : (s.setST b).draws = s.draws := rfl
@[simp] theorem setST_getV (b : Byte) (y : Reg) : (s.setST b).getV y = s.getV y := rfl

/-! ### `setStack` -/

@[simp] theorem setStack_V (l : List Word) : (s.setStack l).V = s.V := rfl
@[simp] theorem setStack_I (l : List Word) : (s.setStack l).I = s.I := rfl
@[simp] theorem setStack_pc (l : List Word) : (s.setStack l).pc = s.pc := rfl
@[simp] theorem setStack_DT (l : List Word) : (s.setStack l).DT = s.DT := rfl
@[simp] theorem setStack_ST (l : List Word) : (s.setStack l).ST = s.ST := rfl
@[simp] theorem setStack_stack (l : List Word) : (s.setStack l).stack = l := rfl
@[simp] theorem setStack_fb (l : List Word) : (s.setStack l).fb = s.fb := rfl
@[simp] theorem setStack_keypad (l : List Word) : (s.setStack l).keypad = s.keypad := rfl
@[simp] theorem setStack_shouldRender (l : List Word) : (s.setStack l).shouldRender = s.shouldRender := rfl
@[simp] theorem setStack_memory (l : List Word) : (s.setStack l).memory = s.memory := rfl
@[simp] theorem setStack_run (l : List Word) : (s.setStack l).run = s.run := rfl
@[simp] theorem setStack_draws (l : List Word) : (s.setStack l).draws = s.draws := rfl
@[simp] theorem setStack_getV (l : List Word) (y : Reg) : (s.setStack l).getV y = s.getV y := rfl

/-! ### `setFb` -/

@[simp] theorem setFb_V (f : Framebuffer) : (s.setFb f).V = s.V := rfl
@[simp] theorem setFb_I (f : Framebuffer) : (s.setFb f).I = s.I := rfl
@[simp] theorem setFb_pc (f : Framebuffer) : (s.setFb f).pc = s.pc := rfl
@[simp] theorem setFb_DT (f : Framebuffer) : (s.setFb f).DT = s.DT := rfl
@[simp] theorem setFb_ST (f : Framebuffer) : (s.setFb f).ST = s.ST := rfl
@[simp] theorem setFb_stack (f : Framebuffer) : (s.setFb f).stack = s.stack := rfl
@[simp] theorem setFb_fb (f : Framebuffer) : (s.setFb f).fb = f := rfl
@[simp] theorem setFb_keypad (f : Framebuffer) : (s.setFb f).keypad = s.keypad := rfl
@[simp] theorem setFb_shouldRender (f : Framebuffer) : (s.setFb f).shouldRender = true := rfl
@[simp] theorem setFb_memory (f : Framebuffer) : (s.setFb f).memory = s.memory := rfl
@[simp] theorem setFb_run (f : Framebuffer) : (s.setFb f).run = s.run := rfl
@[simp] theorem setFb_draws (f : Framebuffer) : (s.setFb f).draws = s.draws := rfl
@[simp] theorem setFb_getV (f : Framebuffer) (y : Reg) : (s.setFb f).getV y = s.getV y := rfl

/-! ### `setKeypad` -/

@[simp] theorem setKeypad_V (k : Vector Bool 16) : (s.setKeypad k).V = s.V := rfl
@[simp] theorem setKeypad_I (k : Vector Bool 16) : (s.setKeypad k).I = s.I := rfl
@[simp] theorem setKeypad_pc (k : Vector Bool 16) : (s.setKeypad k).pc = s.pc := rfl
@[simp] theorem setKeypad_DT (k : Vector Bool 16) : (s.setKeypad k).DT = s.DT := rfl
@[simp] theorem setKeypad_ST (k : Vector Bool 16) : (s.setKeypad k).ST = s.ST := rfl
@[simp] theorem setKeypad_stack (k : Vector Bool 16) : (s.setKeypad k).stack = s.stack := rfl
@[simp] theorem setKeypad_fb (k : Vector Bool 16) : (s.setKeypad k).fb = s.fb := rfl
@[simp] theorem setKeypad_keypad (k : Vector Bool 16) : (s.setKeypad k).keypad = k := rfl
@[simp] theorem setKeypad_shouldRender (k : Vector Bool 16) : (s.setKeypad k).shouldRender = s.shouldRender := rfl
@[simp] theorem setKeypad_memory (k : Vector Bool 16) : (s.setKeypad k).memory = s.memory := rfl
@[simp] theorem setKeypad_run (k : Vector Bool 16) : (s.setKeypad k).run = s.run := rfl
@[simp] theorem setKeypad_draws (k : Vector Bool 16) : (s.setKeypad k).draws = s.draws := rfl
@[simp] theorem setKeypad_getV (k : Vector Bool 16) (y : Reg) : (s.setKeypad k).getV y = s.getV y := rfl

/-! ### `setRender` -/

@[simp] theorem setRender_V (b : Bool) : (s.setRender b).V = s.V := rfl
@[simp] theorem setRender_I (b : Bool) : (s.setRender b).I = s.I := rfl
@[simp] theorem setRender_pc (b : Bool) : (s.setRender b).pc = s.pc := rfl
@[simp] theorem setRender_DT (b : Bool) : (s.setRender b).DT = s.DT := rfl
@[simp] theorem setRender_ST (b : Bool) : (s.setRender b).ST = s.ST := rfl
@[simp] theorem setRender_stack (b : Bool) : (s.setRender b).stack = s.stack := rfl
@[simp] theorem setRender_fb (b : Bool) : (s.setRender b).fb = s.fb := rfl
@[simp] theorem setRender_keypad (b : Bool) : (s.setRender b).keypad = s.keypad := rfl
@[simp] theorem setRender_shouldRender (b : Bool) : (s.setRender b).shouldRender = b := rfl
@[simp] theorem setRender_memory (b : Bool) : (s.setRender b).memory = s.memory := rfl
@[simp] theorem setRender_run (b : Bool) : (s.setRender b).run = s.run := rfl
@[simp] theorem setRender_draws (b : Bool) : (s.setRender b).draws = s.draws := rfl
@[simp] theorem setRender_getV (b : Bool) (y : Reg) : (s.setRender b).getV y = s.getV y := rfl

/-! ### `setMemory` -/

@[simp] theorem setMemory_V (m : Memory) : (s.setMemory m).V = s.V := rfl
@[simp] theorem setMemory_I (m : Memory) : (s.setMemory m).I = s.I := rfl
@[simp] theorem setMemory_pc (m : Memory) : (s.setMemory m).pc = s.pc := rfl
@[simp] theorem setMemory_DT (m : Memory) : (s.setMemory m).DT = s.DT := rfl
@[simp] theorem setMemory_ST (m : Memory) : (s.setMemory m).ST = s.ST := rfl
@[simp] theorem setMemory_stack (m : Memory) : (s.setMemory m).stack = s.stack := rfl
@[simp] theorem setMemory_fb (m : Memory) : (s.setMemory m).fb = s.fb := rfl
@[simp] theorem setMemory_keypad (m : Memory) : (s.setMemory m).keypad = s.keypad := rfl
@[simp] theorem setMemory_shouldRender (m : Memory) : (s.setMemory m).shouldRender = s.shouldRender := rfl
@[simp] theorem setMemory_memory (m : Memory) : (s.setMemory m).memory = m := rfl
@[simp] theorem setMemory_run (m : Memory) : (s.setMemory m).run = s.run := rfl
@[simp] theorem setMemory_draws (m : Memory) : (s.setMemory m).draws = s.draws := rfl
@[simp] theorem setMemory_getV (m : Memory) (y : Reg) : (s.setMemory m).getV y = s.getV y := rfl

/-! ### `setRun` -/

@[simp] theorem setRun_V (r : RunState) : (s.setRun r).V = s.V := rfl
@[simp] theorem setRun_I (r : RunState) : (s.setRun r).I = s.I := rfl
@[simp] theorem setRun_pc (r : RunState) : (s.setRun r).pc = s.pc := rfl
@[simp] theorem setRun_DT (r : RunState) : (s.setRun r).DT = s.DT := rfl
@[simp] theorem setRun_ST (r : RunState) : (s.setRun r).ST = s.ST := rfl
@[simp] theorem setRun_stack (r : RunState) : (s.setRun r).stack = s.stack := rfl
@[simp] theorem setRun_fb (r : RunState) : (s.setRun r).fb = s.fb := rfl
@[simp] theorem setRun_keypad (r : RunState) : (s.setRun r).keypad = s.keypad := rfl
@[simp] theorem setRun_shouldRender (r : RunState) : (s.setRun r).shouldRender = s.shouldRender := rfl
@[simp] theorem setRun_memory (r : RunState) : (s.setRun r).memory = s.memory := rfl
@[simp] theorem setRun_run (r : RunState) : (s.setRun r).run = r := rfl
@[simp] theorem setRun_draws (r : RunState) : (s.setRun r).draws = s.draws := rfl
@[simp] theorem setRun_getV (r : RunState) (y : Reg) : (s.setRun r).getV y = s.getV y := rfl

/-! ### `setDraws` -/

@[simp] theorem setDraws_V (n : Nat) : (s.setDraws n).V = s.V := rfl
@[simp] theorem setDraws_I (n : Nat) : (s.setDraws n).I = s.I := rfl
@[simp] theorem setDraws_pc (n : Nat) : (s.setDraws n).pc = s.pc := rfl
@[simp] theorem setDraws_DT (n : Nat) : (s.setDraws n).DT = s.DT := rfl
@[simp] theorem setDraws_ST (n : Nat) : (s.setDraws n).ST = s.ST := rfl
@[simp] theorem setDraws_stack (n : Nat) : (s.setDraws n).stack = s.stack := rfl
@[simp] theorem setDraws_fb (n : Nat) : (s.setDraws n).fb = s.fb := rfl
@[simp] theorem setDraws_keypad (n : Nat) : (s.setDraws n).keypad = s.keypad := rfl
@[simp] theorem setDraws_shouldRender (n : Nat) : (s.setDraws n).shouldRender = s.shouldRender := rfl
@[simp] theorem setDraws_memory (n : Nat) : (s.setDraws n).memory = s.memory := rfl
@[simp] theorem setDraws_run (n : Nat) : (s.setDraws n).run = s.run := rfl
@[simp] theorem setDraws_draws (n : Nat) : (s.setDraws n).draws = n := rfl
@[simp] theorem setDraws_getV (n : Nat) (y : Reg) : (s.setDraws n).getV y = s.getV y := rfl

/-! ### `advance` -/

@[simp] theorem advance_V : s.advance.V = s.V := rfl
@[simp] theorem advance_I : s.advance.I = s.I := rfl
@[simp] theorem advance_pc : s.advance.pc = s.pc + 2#16 := rfl
@[simp] theorem advance_DT : s.advance.DT = s.DT := rfl
@[simp] theorem advance_ST : s.advance.ST = s.ST := rfl
@[simp] theorem advance_stack : s.advance.stack = s.stack := rfl
@[simp] theorem advance_fb : s.advance.fb = s.fb := rfl
@[simp] theorem advance_keypad : s.advance.keypad = s.keypad := rfl
@[simp] theorem advance_shouldRender : s.advance.shouldRender = s.shouldRender := rfl
@[simp] theorem advance_memory : s.advance.memory = s.memory := rfl
@[simp] theorem advance_run : s.advance.run = s.run := rfl
@[simp] theorem advance_draws : s.advance.draws = s.draws := rfl
@[simp] theorem advance_getV (y : Reg) : s.advance.getV y = s.getV y := rfl

/-! ### `loadBlock` -/

@[simp] theorem loadBlock_V (x : Reg) : (s.loadBlock x).V = Vector.ofFn (fun k : Fin 16 => if k ≤ x then s.memory.read (s.base + k.val) else s.V[k]) := rfl
@[simp] theorem loadBlock_I (x : Reg) : (s.loadBlock x).I = s.I := rfl
@[simp] theorem loadBlock_pc (x : Reg) : (s.loadBlock x).pc = s.pc := rfl
@[simp] theorem loadBlock_DT (x : Reg) : (s.loadBlock x).DT = s.DT := rfl
@[simp] theorem loadBlock_ST (x : Reg) : (s.loadBlock x).ST = s.ST := rfl
@[simp] theorem loadBlock_stack (x : Reg) : (s.loadBlock x).stack = s.stack := rfl
@[simp] theorem loadBlock_fb (x : Reg) : (s.loadBlock x).fb = s.fb := rfl
@[simp] theorem loadBlock_keypad (x : Reg) : (s.loadBlock x).keypad = s.keypad := rfl
@[simp] theorem loadBlock_shouldRender (x : Reg) : (s.loadBlock x).shouldRender = s.shouldRender := rfl
@[simp] theorem loadBlock_memory (x : Reg) : (s.loadBlock x).memory = s.memory := rfl
@[simp] theorem loadBlock_run (x : Reg) : (s.loadBlock x).run = s.run := rfl
@[simp] theorem loadBlock_draws (x : Reg) : (s.loadBlock x).draws = s.draws := rfl

/-! ### `setResultFlag` and `skipIf` -/

@[simp] theorem setResultFlag_I (o : Config.VfWriteOrder) (x : Reg) (r b : Byte) :
    (s.setResultFlag o x r b).I = s.I := by cases o <;> rfl
@[simp] theorem setResultFlag_pc (o : Config.VfWriteOrder) (x : Reg) (r b : Byte) :
    (s.setResultFlag o x r b).pc = s.pc := by cases o <;> rfl
@[simp] theorem setResultFlag_DT (o : Config.VfWriteOrder) (x : Reg) (r b : Byte) :
    (s.setResultFlag o x r b).DT = s.DT := by cases o <;> rfl
@[simp] theorem setResultFlag_ST (o : Config.VfWriteOrder) (x : Reg) (r b : Byte) :
    (s.setResultFlag o x r b).ST = s.ST := by cases o <;> rfl
@[simp] theorem setResultFlag_stack (o : Config.VfWriteOrder) (x : Reg) (r b : Byte) :
    (s.setResultFlag o x r b).stack = s.stack := by cases o <;> rfl
@[simp] theorem setResultFlag_fb (o : Config.VfWriteOrder) (x : Reg) (r b : Byte) :
    (s.setResultFlag o x r b).fb = s.fb := by cases o <;> rfl
@[simp] theorem setResultFlag_keypad (o : Config.VfWriteOrder) (x : Reg) (r b : Byte) :
    (s.setResultFlag o x r b).keypad = s.keypad := by cases o <;> rfl
@[simp] theorem setResultFlag_shouldRender (o : Config.VfWriteOrder) (x : Reg) (r b : Byte) :
    (s.setResultFlag o x r b).shouldRender = s.shouldRender := by cases o <;> rfl
@[simp] theorem setResultFlag_memory (o : Config.VfWriteOrder) (x : Reg) (r b : Byte) :
    (s.setResultFlag o x r b).memory = s.memory := by cases o <;> rfl
@[simp] theorem setResultFlag_run (o : Config.VfWriteOrder) (x : Reg) (r b : Byte) :
    (s.setResultFlag o x r b).run = s.run := by cases o <;> rfl
@[simp] theorem setResultFlag_draws (o : Config.VfWriteOrder) (x : Reg) (r b : Byte) :
    (s.setResultFlag o x r b).draws = s.draws := by cases o <;> rfl

@[simp] theorem skipIf_V (c : Bool) : (s.skipIf c).V = s.V := by cases c <;> rfl
@[simp] theorem skipIf_I (c : Bool) : (s.skipIf c).I = s.I := by cases c <;> rfl
@[simp] theorem skipIf_DT (c : Bool) : (s.skipIf c).DT = s.DT := by cases c <;> rfl
@[simp] theorem skipIf_ST (c : Bool) : (s.skipIf c).ST = s.ST := by cases c <;> rfl
@[simp] theorem skipIf_stack (c : Bool) : (s.skipIf c).stack = s.stack := by cases c <;> rfl
@[simp] theorem skipIf_fb (c : Bool) : (s.skipIf c).fb = s.fb := by cases c <;> rfl
@[simp] theorem skipIf_keypad (c : Bool) : (s.skipIf c).keypad = s.keypad := by cases c <;> rfl
@[simp] theorem skipIf_shouldRender (c : Bool) : (s.skipIf c).shouldRender = s.shouldRender := by cases c <;> rfl
@[simp] theorem skipIf_memory (c : Bool) : (s.skipIf c).memory = s.memory := by cases c <;> rfl
@[simp] theorem skipIf_run (c : Bool) : (s.skipIf c).run = s.run := by cases c <;> rfl
@[simp] theorem skipIf_draws (c : Bool) : (s.skipIf c).draws = s.draws := by cases c <;> rfl
@[simp] theorem skipIf_getV (c : Bool) (y : Reg) : (s.skipIf c).getV y = s.getV y := by cases c <;> rfl

/-! ### Reading a register after writing one -/

theorem getV_setV (x y : Reg) (b : Byte) : (s.setV x b).getV y = if x = y then b else s.getV y := by
  simp only [getV, setV, Fin.getElem_fin, Vector.getElem_set, Fin.ext_iff]

@[simp] theorem getV_setV_same (x : Reg) (b : Byte) : (s.setV x b).getV x = b := by simp [getV_setV]

theorem getV_setV_other {x y : Reg} (h : x ≠ y) (b : Byte) : (s.setV x b).getV y = s.getV y := by
  simp [getV_setV, h]

/-- What `loadBlock` leaves in each register: the loaded byte up to `x`, the old value above (R255). -/
theorem getV_loadBlock (x y : Reg) :
    (s.loadBlock x).getV y = if y ≤ x then s.memory.read (s.base + y.val) else s.getV y := by
  simp [getV, loadBlock]

/-- Two states with equal fields and equal registers are equal. -/
theorem V_ext {v w : Vector Byte 16} (h : ∀ x : Reg, v[x] = w[x]) : v = w :=
  Vector.ext (fun i hi => h ⟨i, hi⟩)

end Sys2Proof.Machine.State
end

