-- ==== Sys2Proof/Laws/Ops.lean ====
section
/-! SUPPORT. For each shared operation, once, everything it can do; and what a step and an instruction can do. -/

namespace Sys2Proof.Machine

theorem raise_eq (e : Fault) (s : State) : raise e s = .next (s.setRun (.failed e)) := rfl

@[simp] theorem memSize_eq : Config.memSize = 4096 := rfl

theorem inRange_iff {a count : Nat} : inRange a count = true ↔ count = 0 ∨ a + count ≤ Config.memSize := by
  simp only [inRange, Bool.or_eq_true, beq_iff_eq, decide_eq_true_eq]

theorem inRange_eq_false {a count : Nat} : inRange a count = false ↔ 0 < count ∧ Config.memSize < a + count := by
  rw [← Bool.not_eq_true, inRange_iff]; omega

/-- An access through `I` goes on where all its bytes lie in memory. -/
theorem withMemory_inRange {count : Nat} {s : State} (h : inRange s.I.toNat count = true) (k : State) :
    withMemory count s k = .next k := by simp [withMemory, h]

/-- An access through `I` that leaves memory raises the error and writes nothing (R73, R363). -/
theorem withMemory_outside {count : Nat} {s : State} (h : inRange s.I.toNat count = false) (k : State) :
    withMemory count s k = .next (s.setRun (.failed (.memoryOutOfBounds (firstOutside s.I.toNat)))) := by
  simp [withMemory, h, raise]

/-- All that `withMemory` can do. -/
theorem withMemory_cases {count : Nat} {s k t : State} (h : withMemory count s k = .next t) :
    (inRange s.I.toNat count = true ∧ t = k) ∨
    (inRange s.I.toNat count = false ∧
      t = s.setRun (.failed (.memoryOutOfBounds (firstOutside s.I.toNat)))) := by
  cases hr : inRange s.I.toNat count with
  | true => rw [withMemory_inRange hr] at h; cases h; exact .inl ⟨rfl, rfl⟩
  | false => rw [withMemory_outside hr] at h; cases h; exact .inr ⟨rfl, rfl⟩

theorem ended_eq_none {r : RunState} : r.ended = none ↔ r = .running := by cases r <;> simp [RunState.ended]

theorem whileRunning_running {s : State} (h : s.run = .running) (k : Host.Outcome State Fault Refusal) :
    whileRunning s k = k := by simp [whileRunning, h, RunState.ended]

/-- All that `whileRunning` can do: a next state comes only from a running machine, and is its argument's. -/
theorem whileRunning_cases {s t : State} {k : Host.Outcome State Fault Refusal} (h : whileRunning s k = .next t) :
    s.run = .running ∧ k = .next t := by
  cases hr : s.run with
  | running => rw [whileRunning_running hr] at h; exact ⟨rfl, h⟩
  | stopped => simp [whileRunning, hr, RunState.ended] at h
  | failed e => simp [whileRunning, hr, RunState.ended] at h

theorem fetch_some {s : State} {w : Word} (h : s.fetch = some w) :
    s.pc.toNat + 1 < Config.memSize ∧
      w = wordOfBytes (s.memory.read s.pc.toNat) (s.memory.read (s.pc.toNat + 1)) := by
  unfold State.fetch Memory.fetch at h
  split at h
  · exact ⟨‹_›, (Option.some.inj h).symm⟩
  · cases h

theorem fetch_none {s : State} (h : s.fetch = none) : Config.memSize ≤ s.pc.toNat + 1 := by
  unfold State.fetch Memory.fetch at h
  split at h
  · cases h
  · omega

/-- `withFetchWord` places the word where the next step fetches it. -/
theorem fetch_withFetchWord {s : State} (nbits w : Nat) (h : s.pc.toNat + 1 < Config.memSize) :
    (s.withFetchWord nbits w).fetch = some (tableWord nbits w) := by
  rw [State.withFetchWord, if_pos h]
  simp only [State.fetch, Memory.fetch, State.setRun_pc, State.setMemory_pc, State.setRun_memory,
    State.setMemory_memory, if_pos h, Memory.read_store]
  simp

/-- `withFetchWord` keeps memory's canonical form. -/
theorem wf_withFetchWord {s : State} (nbits w : Nat) (h : s.memory.wf) :
    Memory.wf (s.withFetchWord nbits w).memory := by
  unfold State.withFetchWord
  split
  · rename_i hp
    exact Memory.wf_store h (by simp only [List.length_cons, List.length_nil]; omega)
  · exact h

/-- Writing a result and its flag changes registers only. -/
theorem setResultFlag_eq (s : State) (o : Config.VfWriteOrder) (x : Reg) (r f : Byte) :
    s.setResultFlag o x r f = { s with V := (s.setResultFlag o x r f).V } := by cases o <;> rfl

@[simp] theorem setResultFlag_run (s : State) (o : Config.VfWriteOrder) (x : Reg) (r f : Byte) :
    (s.setResultFlag o x r f).run = s.run := by cases o <;> rfl

/-- All that a step can do (R150): a failed fetch, a word that does not decode, or the instruction. -/
theorem stepCycle_cases {ex : Instr → State → Host.Outcome State Fault Refusal} {s t : State}
    (h : stepCycle ex s = .next t) :
    s.run = .running ∧
    ((s.fetch = none ∧ t = s.setRun (.failed (.fetchOutOfBounds s.pc))) ∨
     (∃ w e, s.fetch = some w ∧ decode w = .error e ∧ t = s.setRun (.failed (.unknownOpcode e.word))) ∨
     (∃ w i, s.fetch = some w ∧ decode w = .ok i ∧ ex i s = .next t)) := by
  obtain ⟨hr, h⟩ := whileRunning_cases h
  refine ⟨hr, ?_⟩
  split at h
  · rename_i hf; cases h; exact .inl ⟨hf, rfl⟩
  · rename_i w hf
    split at h
    · rename_i e he; cases h; exact .inr (.inl ⟨w, e, hf, he, rfl⟩)
    · rename_i i hi; exact .inr (.inr ⟨w, i, hf, hi, h⟩)

/-- What a step of a running machine is, where the fetched word decodes. -/
theorem stepCycle_decoded {ex : Instr → State → Host.Outcome State Fault Refusal} {s : State} {w : Word} {i : Instr}
    (hr : s.run = .running) (hf : s.fetch = some w) (hd : decode w = .ok i) : stepCycle ex s = ex i s := by
  unfold stepCycle
  rw [whileRunning_running hr]
  simp only [hf, hd]

/-- What a step of a running machine is, where nothing can be fetched. -/
theorem stepCycle_unfetched {ex : Instr → State → Host.Outcome State Fault Refusal} {s : State}
    (hr : s.run = .running) (hf : s.fetch = none) :
    stepCycle ex s = .next (s.setRun (.failed (.fetchOutOfBounds s.pc))) := by
  unfold stepCycle
  rw [whileRunning_running hr]
  simp only [hf, raise_eq]

/-- What a step of a running machine is, where the fetched word does not decode. -/
theorem stepCycle_undecoded {ex : Instr → State → Host.Outcome State Fault Refusal} {s : State} {w : Word}
    {e : UnknownOpcode} (hr : s.run = .running) (hf : s.fetch = some w) (hd : decode w = .error e) :
    stepCycle ex s = .next (s.setRun (.failed (.unknownOpcode e.word))) := by
  unfold stepCycle
  rw [whileRunning_running hr]
  simp only [hf, hd, raise_eq]

/-- What every action of the host keeps, every sequence of them keeps. -/
theorem runActionsBy_keeps {st : State → Host.Outcome State Fault Refusal} {P : State → Prop}
    (hk : ∀ a s t, P s → actBy st a s = .next t → P t) :
    ∀ (as : List HostAction) (s t : State), P s → runActionsBy st as s = .next t → P t
  | [], s, t, hs, h => by cases h; exact hs
  | a :: as, s, t, hs, h => by
    unfold runActionsBy at h
    split at h
    · exact runActionsBy_keeps hk as _ t (hk a s _ hs ‹_›) h
    · cases h
    · cases h

/-- `stepCycle_cases` at the defaults of R7. -/
theorem step_cases {s t : State} (h : step s = .next t) :
    s.run = .running ∧
    ((s.fetch = none ∧ t = s.setRun (.failed (.fetchOutOfBounds s.pc))) ∨
     (∃ w e, s.fetch = some w ∧ decode w = .error e ∧ t = s.setRun (.failed (.unknownOpcode e.word))) ∨
     (∃ w i, s.fetch = some w ∧ decode w = .ok i ∧ exec i s = .next t)) :=
  stepCycle_cases h

/-- At the defaults of R7 executing under parameters is `exec`. -/
@[simp] theorem execWith_params (i : Instr) (s : State) : execWith Config.params i s = exec i s := by cases i <;> rfl

/-- At the defaults of R7 a step under parameters is `step`. -/
@[simp] theorem stepWith_params (s : State) : stepWith Config.params s = step s := by
  simp only [stepWith, step, show execWith Config.params = exec from funext₂ execWith_params]

/-- An instruction that reads no parameter is executed alike under all of them. -/
theorem execWith_of_readsParameter_eq_false {i : Instr} (h : readsParameter i = false) (p : Config.Params) (s : State) :
    execWith p i s = exec i s := by
  cases i <;> first | rfl | cases h

/-- The forms of a next state of `execWith`: the halting `Return`, `Sys`, an access outside memory, a `Call` on a full
stack, and every other case, which leaves `run` alone. -/
theorem execWith_cases {p : Config.Params} {i : Instr} {s t : State} (h : execWith p i s = .next t) :
    (i = .ret ∧ s.stack = [] ∧ t = s.setRun .stopped) ∨
    (∃ nnn, i = .sys nnn ∧ t = s.setRun (.failed (.unimplementedOpcode i.word (.instr i)))) ∨
    (0 < dataBytes i ∧ 4096 < s.I.toNat + dataBytes i ∧
      t = s.setRun (.failed (.memoryOutOfBounds (max s.I.toNat 4096)))) ∨
    (∃ nnn, i = .call nnn ∧ p.stackLimit = some s.stack.length ∧ t = s.setRun (.failed (.stackOverflow s.pc))) ∨
    (t.run = s.run ∧ (∀ nnn, i ≠ .sys nnn) ∧ (i = .ret → s.stack ≠ []) ∧
      (dataBytes i = 0 ∨ s.I.toNat + dataBytes i ≤ 4096) ∧
      (∀ nnn, i = .call nnn → p.stackLimit ≠ some s.stack.length)) := by
  cases i
  case ret =>
    simp only [execWith, exec, execRet] at h
    split at h <;> cases h
    · exact .inl ⟨rfl, ‹_›, rfl⟩
    · rename_i hs
      exact .inr (.inr (.inr (.inr ⟨rfl, by simp, fun _ e => by simp [e] at hs, .inl rfl, by simp⟩)))
  case sys nnn => cases h; exact .inr (.inl ⟨nnn, rfl, rfl⟩)
  case call nnn =>
    simp only [execWith, execCallWith] at h
    split at h <;> cases h
    · exact .inr (.inr (.inr (.inl ⟨nnn, rfl, ‹_›, rfl⟩)))
    · exact .inr (.inr (.inr (.inr ⟨rfl, by simp, by simp, .inl rfl, fun _ _ => ‹_›⟩)))
  case getKeyOp x =>
    simp only [execWith, exec, execGetKeyOp] at h
    split at h <;> cases h <;> exact .inr (.inr (.inr (.inr ⟨rfl, by simp, by simp, .inl rfl, by simp⟩)))
  case bcd | memDump | memLoad | display =>
    rcases withMemory_cases h with ⟨hr, rfl⟩ | ⟨hr, rfl⟩
    · exact .inr (.inr (.inr (.inr ⟨rfl, by simp, by simp, inRange_iff.1 hr, by simp⟩)))
    · exact .inr (.inr (.inl ⟨(inRange_eq_false.1 hr).1, (inRange_eq_false.1 hr).2, rfl⟩))
  all_goals
    cases h
    refine .inr (.inr (.inr (.inr ⟨?_, by simp, by simp, .inl rfl, by simp⟩)))
    first | rfl | (simp only [State.advance_run, setResultFlag_run]) | (simp only [State.skipIf]; split <;> rfl)

/-- `execWith_cases` at the defaults of R7, under which no `Call` finds the stack full. -/
theorem exec_cases {i : Instr} {s t : State} (h : exec i s = .next t) :
    (i = .ret ∧ s.stack = [] ∧ t = s.setRun .stopped) ∨
    (∃ nnn, i = .sys nnn ∧ t = s.setRun (.failed (.unimplementedOpcode i.word (.instr i)))) ∨
    (0 < dataBytes i ∧ 4096 < s.I.toNat + dataBytes i ∧
      t = s.setRun (.failed (.memoryOutOfBounds (max s.I.toNat 4096)))) ∨
    (t.run = s.run ∧ (∀ nnn, i ≠ .sys nnn) ∧ (i = .ret → s.stack ≠ []) ∧
      (dataBytes i = 0 ∨ s.I.toNat + dataBytes i ≤ 4096)) := by
  rcases execWith_cases (p := Config.params) (by rwa [execWith_params]) with h | h | h | ⟨_, _, h, _⟩ | h
  · exact .inl h
  · exact .inr (.inl h)
  · exact .inr (.inr (.inl h))
  · cases h
  · exact .inr (.inr (.inr ⟨h.1, h.2.1, h.2.2.1, h.2.2.2.1⟩))

/-- All that a skip can do (R155). -/
theorem skipIf_pc (c : Bool) (s : State) :
    (s.skipIf c).pc = if c then s.pc + 4#16 else s.pc + 2#16 := by
  cases c
  · rfl
  · simp only [State.skipIf, if_true, State.advance_pc, BitVec.add_assoc]; rfl

theorem skipIf_eq (c : Bool) (s : State) : s.skipIf c = s.setPc (s.skipIf c).pc := by cases c <;> rfl

/-- All that writing a result and its flag can do (R206). -/
theorem getV_setResultFlag (s : State) (o : Config.VfWriteOrder) (x y : Reg) (r f : Byte) :
    (s.setResultFlag o x r f).getV y =
      if x = VF ∧ y = VF then (match o with | .flagLast => f | .resultLast => r)
      else if y = VF then f else if y = x then r else s.getV y := by
  cases o <;> simp only [State.setResultFlag, State.getV_setV]
  · by_cases hy : y = VF
    · subst hy; by_cases hx : x = VF <;> simp [hx]
    · simp [hy, eq_comm]
  · by_cases hy : y = x
    · subst hy; by_cases hx : y = VF <;> simp [hx]
    · by_cases hv : y = VF
      · subst hv; simp [Ne.symm hy]
      · simp [hv, hy, Ne.symm hy, Ne.symm hv]

/-- The keypad arbiter answers the smallest key that is down, or none where no key is (R320). -/
theorem lowestKey_mem {k : Vector Bool 16} {i : Key} (h : lowestKey k = some i) : k[i] = true := by
  simpa using List.find?_some h

theorem length_block (s : State) (x : Reg) : (s.block x).length = x.val + 1 := by
  simp [State.block]

/-- The `k`-th byte of the block is `V[k]` (R254). -/
theorem getD_block (s : State) (x k : Reg) (h : k ≤ x) : (s.block x).getD k.val 0 = s.getV k := by
  have hk : k.val < x.val + 1 := Nat.lt_succ_of_le h
  simp [State.block, State.getV, List.getD_eq_getElem?_getD, hk]

end Sys2Proof.Machine
end

