-- ==== Sys2Proof/Laws/PerInstr.lean ====
section
/-! SUPPORT. Statements made once per instruction. `MatchesRow`: the encoder's word has the bits that the instruction's row
of spec/opcode_table.json fixes. -/

namespace Sys2Proof.Laws.MatchesRow

/-- The word of an instruction, under its row's mask, is its row's pattern. -/
def Statement (i : Instr) : Prop := i.word &&& i.row.mask = i.row.pattern

/-- Four bits under the mask of all four. -/
theorem and_ones4 (b : BitVec 4) : b &&& 0xF#4 = b := BitVec.and_allOnes (x := b)

/-- Eight bits under the mask of all eight. -/
theorem and_ones8 (b : BitVec 8) : b &&& 0xFF#8 = b := BitVec.and_allOnes (x := b)

theorem and_formA (f : BitVec 4) (a : Addr) : formA f a &&& 0xF000#16 = formA f 0 := by
  have e : (f ++ a) &&& (0xF#4 ++ 0#12) = (f &&& 0xF#4) ++ (a &&& 0#12) := BitVec.and_append
  rw [and_ones4, BitVec.and_zero] at e
  exact e

theorem and_formXK_mask (f : BitVec 4) (x : Reg) (kk k : Byte) :
    formXK f x kk &&& (0xF#4 ++ 0#4 ++ k : BitVec 16) = formXK f 0 (kk &&& k) := by
  have e : (f ++ nibbleBits x ++ kk) &&& (0xF#4 ++ 0#4 ++ k) =
      ((f ++ nibbleBits x) &&& (0xF#4 ++ 0#4)) ++ (kk &&& k) := BitVec.and_append
  have e' : (f ++ nibbleBits x) &&& (0xF#4 ++ 0#4) = (f &&& 0xF#4) ++ (nibbleBits x &&& 0#4) := BitVec.and_append
  rw [e', and_ones4, BitVec.and_zero] at e
  exact e

theorem and_formXK (f : BitVec 4) (x : Reg) (kk : Byte) : formXK f x kk &&& 0xF000#16 = formXK f 0 0 := by
  have e := and_formXK_mask f x kk 0#8
  rw [BitVec.and_zero] at e
  exact e

theorem and_formX (f : BitVec 4) (x : Reg) (kk : Byte) : formXK f x kk &&& 0xF0FF#16 = formXK f 0 kk := by
  have e := and_formXK_mask f x kk 0xFF#8
  rw [and_ones8] at e
  exact e

theorem and_formXY_mask (f : BitVec 4) (x y : Reg) (n : Nibble) (k : BitVec 4) :
    formXY f x y n &&& (0xF#4 ++ 0#4 ++ 0#4 ++ k : BitVec 16) = f ++ 0#4 ++ 0#4 ++ (nibbleBits n &&& k) := by
  have e : (f ++ nibbleBits x ++ nibbleBits y ++ nibbleBits n) &&& (0xF#4 ++ 0#4 ++ 0#4 ++ k) =
      ((f ++ nibbleBits x ++ nibbleBits y) &&& (0xF#4 ++ 0#4 ++ 0#4)) ++ (nibbleBits n &&& k) := BitVec.and_append
  have e1 : (f ++ nibbleBits x ++ nibbleBits y) &&& (0xF#4 ++ 0#4 ++ 0#4) =
      ((f ++ nibbleBits x) &&& (0xF#4 ++ 0#4)) ++ (nibbleBits y &&& 0#4) := BitVec.and_append
  have e2 : (f ++ nibbleBits x) &&& (0xF#4 ++ 0#4) = (f &&& 0xF#4) ++ (nibbleBits x &&& 0#4) := BitVec.and_append
  rw [e1, e2, and_ones4, BitVec.and_zero, BitVec.and_zero] at e
  exact e

theorem and_formXY (f : BitVec 4) (x y : Reg) (n : Nibble) : formXY f x y n &&& 0xF00F#16 = formXY f 0 0 n := by
  have e := and_formXY_mask f x y n 0xF#4
  rw [and_ones4] at e
  exact e

theorem and_formXYN (f : BitVec 4) (x y : Reg) (n : Nibble) : formXY f x y n &&& 0xF000#16 = formXY f 0 0 0 := by
  have e := and_formXY_mask f x y n 0#4
  rw [BitVec.and_zero] at e
  exact e

theorem clear : Statement .clear := rfl
theorem ret : Statement .ret := rfl
theorem sys (nnn : Addr) : Statement (.sys nnn) := and_formA _ _
theorem jump (nnn : Addr) : Statement (.jump nnn) := and_formA _ _
theorem call (nnn : Addr) : Statement (.call nnn) := and_formA _ _
theorem ifEq (x : Reg) (kk : Byte) : Statement (.ifEq x kk) := and_formXK _ _ _
theorem ifNeq (x : Reg) (kk : Byte) : Statement (.ifNeq x kk) := and_formXK _ _ _
theorem ifEqReg (x y : Reg) : Statement (.ifEqReg x y) := and_formXY _ _ _ _
theorem loadImm (x : Reg) (kk : Byte) : Statement (.loadImm x kk) := and_formXK _ _ _
theorem add (x : Reg) (kk : Byte) : Statement (.add x kk) := and_formXK _ _ _
theorem loadReg (x y : Reg) : Statement (.loadReg x y) := and_formXY _ _ _ _
theorem or (x y : Reg) : Statement (.or x y) := and_formXY _ _ _ _
theorem and (x y : Reg) : Statement (.and x y) := and_formXY _ _ _ _
theorem xor (x y : Reg) : Statement (.xor x y) := and_formXY _ _ _ _
theorem addReg (x y : Reg) : Statement (.addReg x y) := and_formXY _ _ _ _
theorem sub (x y : Reg) : Statement (.sub x y) := and_formXY _ _ _ _
theorem rightShift (x y : Reg) : Statement (.rightShift x y) := and_formXY _ _ _ _
theorem subSelf (x y : Reg) : Statement (.subSelf x y) := and_formXY _ _ _ _
theorem leftShift (x y : Reg) : Statement (.leftShift x y) := and_formXY _ _ _ _
theorem ifNeqReg (x y : Reg) : Statement (.ifNeqReg x y) := and_formXY _ _ _ _
theorem loadI (nnn : Addr) : Statement (.loadI nnn) := and_formA _ _
theorem jumpV0 (nnn : Addr) : Statement (.jumpV0 nnn) := and_formA _ _
theorem random (x : Reg) (kk : Byte) : Statement (.random x kk) := and_formXK _ _ _
theorem display (x y : Reg) (n : Nibble) : Statement (.display x y n) := and_formXYN _ _ _ _
theorem keyOpEq (x : Reg) : Statement (.keyOpEq x) := and_formX _ _ _
theorem keyOpNeq (x : Reg) : Statement (.keyOpNeq x) := and_formX _ _ _
theorem getDelay (x : Reg) : Statement (.getDelay x) := and_formX _ _ _
theorem getKeyOp (x : Reg) : Statement (.getKeyOp x) := and_formX _ _ _
theorem setDelay (x : Reg) : Statement (.setDelay x) := and_formX _ _ _
theorem setSound (x : Reg) : Statement (.setSound x) := and_formX _ _ _
theorem addI (x : Reg) : Statement (.addI x) := and_formX _ _ _
theorem loadFont (x : Reg) : Statement (.loadFont x) := and_formX _ _ _
theorem bcd (x : Reg) : Statement (.bcd x) := and_formX _ _ _
theorem memDump (x : Reg) : Statement (.memDump x) := and_formX _ _ _
theorem memLoad (x : Reg) : Statement (.memLoad x) := and_formX _ _ _

end Sys2Proof.Laws.MatchesRow
end

