-- ==== Sys2Proof/Machine/Spelling.lean ====
section
/-! DEFINITION. The instruction spelling and the toolchain conventions that spec/30_encoding.md keeps (R104 canonical
syntax, R115–R117). The assembler and the disassembler themselves are out of scope (spec/00_scope.md R5). -/

namespace Sys2Proof.Machine

/-- The lower-case hex digit of a value below 16. -/
def hexDigit (n : Nat) : Char := "0123456789abcdef".toList.getD n '?'

/-- The last `k` hex digits of a number, the most significant first. -/
def hexDigits : Nat → Nat → List Char
  | 0, _ => []
  | k + 1, n => hexDigit (n / 16 ^ k % 16) :: hexDigits k n

/-- `v` and one hex digit (R115). -/
def spellReg (x : Reg) : String := "v" ++ String.ofList [hexDigit x.val]

/-- Immediates and nibbles: `0x` and two hex digits (R115). -/
def spellByte (n : Nat) : String := "0x" ++ String.ofList (hexDigits 2 n)

/-- Addresses: `0x` and three hex digits (R115, decision D31). -/
def spellAddr (a : Addr) : String := "0x" ++ String.ofList (hexDigits 3 a.toNat)

/-- A mnemonic with two operands in their canonical order (R115). -/
def spellTwo (mnemonic a b : String) : String := mnemonic ++ " " ++ a ++ ", " ++ b

/-- The canonical spelling of an instruction (R104, R115). -/
def spell : Instr → String
  | .clear => "cls"
  | .ret => "ret"
  | .sys nnn => "sys " ++ spellAddr nnn
  | .jump nnn => "jp " ++ spellAddr nnn
  | .call nnn => "call " ++ spellAddr nnn
  | .ifEq x kk => spellTwo "se" (spellReg x) (spellByte kk.toNat)
  | .ifNeq x kk => spellTwo "sne" (spellReg x) (spellByte kk.toNat)
  | .ifEqReg x y => spellTwo "se" (spellReg x) (spellReg y)
  | .loadImm x kk => spellTwo "ld" (spellReg x) (spellByte kk.toNat)
  | .add x kk => spellTwo "add" (spellReg x) (spellByte kk.toNat)
  | .loadReg x y => spellTwo "ld" (spellReg x) (spellReg y)
  | .or x y => spellTwo "or" (spellReg x) (spellReg y)
  | .and x y => spellTwo "and" (spellReg x) (spellReg y)
  | .xor x y => spellTwo "xor" (spellReg x) (spellReg y)
  | .addReg x y => spellTwo "add" (spellReg x) (spellReg y)
  | .sub x y => spellTwo "sub" (spellReg x) (spellReg y)
  | .rightShift x y => spellTwo "shr" (spellReg x) (spellReg y)
  | .subSelf x y => spellTwo "subn" (spellReg x) (spellReg y)
  | .leftShift x y => spellTwo "shl" (spellReg x) (spellReg y)
  | .ifNeqReg x y => spellTwo "sne" (spellReg x) (spellReg y)
  | .loadI nnn => spellTwo "ld" "i" (spellAddr nnn)
  | .jumpV0 nnn => spellTwo "jp" "v0" (spellAddr nnn)
  | .random x kk => spellTwo "rnd" (spellReg x) (spellByte kk.toNat)
  | .display x y n => spellTwo "drw" (spellReg x) (spellReg y) ++ ", " ++ spellByte n.val
  | .keyOpEq x => "skp " ++ spellReg x
  | .keyOpNeq x => "sknp " ++ spellReg x
  | .getDelay x => spellTwo "ld" (spellReg x) "dt"
  | .getKeyOp x => spellTwo "ld" (spellReg x) "k"
  | .setDelay x => spellTwo "ld" "dt" (spellReg x)
  | .setSound x => spellTwo "ld" "st" (spellReg x)
  | .addI x => spellTwo "add" "i" (spellReg x)
  | .loadFont x => spellTwo "ld" "f" (spellReg x)
  | .bcd x => spellTwo "ld" "b" (spellReg x)
  | .memDump x => spellTwo "ld" "[i]" (spellReg x)
  | .memLoad x => spellTwo "ld" (spellReg x) "[i]"

/-- The spelling of a value of the instruction model; `RawData` is spelled by its word, `0x` and four hex digits
(R116, decision D31). -/
def spellModel : InstrModel → String
  | .instr i => spell i
  | .rawData w => "0x" ++ String.ofList (hexDigits 4 w.toNat)

/-- A relative address literal (R117): `cursor + 2·k`, `cursor` the address of the instruction being assembled. -/
def relativeTarget (cursor k : Int) : Int := cursor + 2 * k

/-- The words of a program with a `.data` section (R116): the jump over the data block, then each value as a raw word,
the first at 0x202. -/
def dataSection (values : List Word) : List InstrModel :=
  .instr (.jump (BitVec.ofNat 12 (Config.loadAddress + 2 + 2 * values.length))) :: values.map .rawData

end Sys2Proof.Machine
end

