-- ==== Sys2Proof/Tests/Slice0.lean ====
section
/-! SUPPORT. The model's own tests: the checks of WellFormed, every constructor's decoding, small steps, and a witness of
the hypotheses of every statement. The expected values are those of spec/95_test_vectors.md and of the examples in the
rules, or worked from the rules by hand. -/

namespace Sys2Proof.Tests

open Sys2Proof Sys2Proof.Machine

/-! ### WellFormed (R109) -/

theorem test_wf_refuses_sys_0E0 : (Instr.sys 0x0E0#12).wf = false := by decide
theorem test_wf_refuses_sys_0EE : (Instr.sys 0x0EE#12).wf = false := by decide
theorem test_wf_accepts_sys_0E1 : (Instr.sys 0x0E1#12).wf = true := by decide
theorem test_encode_refuses_sys_0E0 : encode (.sys 0x0E0#12) = none := by decide

/-! ### Decoding: one word of each constructor, written out from R102 and R104 -/

theorem test_decode_clear : decode 0b0000_0000_1110_0000#16 = .ok (.clear) := by decide
theorem test_decode_ret : decode 0b0000_0000_1110_1110#16 = .ok (.ret) := by decide
theorem test_decode_sys : decode 0b0000_0000_1110_0001#16 = .ok (.sys 0x0E1#12) := by decide
theorem test_decode_jump : decode 0b0001_1010_1011_1100#16 = .ok (.jump 0xABC#12) := by decide
theorem test_decode_call : decode 0b0010_1010_1011_1100#16 = .ok (.call 0xABC#12) := by decide
theorem test_decode_ifEq : decode 0b0011_1010_0111_1111#16 = .ok (.ifEq 0xA 0x7F#8) := by decide
theorem test_decode_ifNeq : decode 0b0100_1010_0111_1111#16 = .ok (.ifNeq 0xA 0x7F#8) := by decide
theorem test_decode_ifEqReg : decode 0b0101_1010_1011_0000#16 = .ok (.ifEqReg 0xA 0xB) := by decide
theorem test_decode_loadImm : decode 0b0110_1111_1111_1111#16 = .ok (.loadImm 0xF 0xFF#8) := by decide
theorem test_decode_add : decode 0b0111_0000_0000_0001#16 = .ok (.add 0 0x01#8) := by decide
theorem test_decode_loadReg : decode 0b1000_0001_0010_0000#16 = .ok (.loadReg 1 2) := by decide
theorem test_decode_or : decode 0b1000_0001_0010_0001#16 = .ok (.or 1 2) := by decide
theorem test_decode_and : decode 0b1000_0001_0010_0010#16 = .ok (.and 1 2) := by decide
theorem test_decode_xor : decode 0b1000_0001_0010_0011#16 = .ok (.xor 1 2) := by decide
theorem test_decode_addReg : decode 0b1000_0001_0010_0100#16 = .ok (.addReg 1 2) := by decide
theorem test_decode_sub : decode 0b1000_0001_0010_0101#16 = .ok (.sub 1 2) := by decide
theorem test_decode_rightShift : decode 0b1000_0001_0010_0110#16 = .ok (.rightShift 1 2) := by decide
theorem test_decode_subSelf : decode 0b1000_0001_0010_0111#16 = .ok (.subSelf 1 2) := by decide
theorem test_decode_leftShift : decode 0b1000_0001_0010_1110#16 = .ok (.leftShift 1 2) := by decide
theorem test_decode_ifNeqReg : decode 0b1001_1010_1011_0000#16 = .ok (.ifNeqReg 0xA 0xB) := by decide
theorem test_decode_loadI : decode 0b1010_0001_0010_0011#16 = .ok (.loadI 0x123#12) := by decide
theorem test_decode_jumpV0 : decode 0b1011_0001_0010_0011#16 = .ok (.jumpV0 0x123#12) := by decide
theorem test_decode_random : decode 0b1100_0011_0000_1111#16 = .ok (.random 3 0x0F#8) := by decide
theorem test_decode_display : decode 0b1101_0001_0010_0101#16 = .ok (.display 1 2 5) := by decide
theorem test_decode_keyOpEq : decode 0b1110_0101_1001_1110#16 = .ok (.keyOpEq 5) := by decide
theorem test_decode_keyOpNeq : decode 0b1110_0101_1010_0001#16 = .ok (.keyOpNeq 5) := by decide
theorem test_decode_getDelay : decode 0b1111_0101_0000_0111#16 = .ok (.getDelay 5) := by decide
theorem test_decode_getKeyOp : decode 0b1111_0101_0000_1010#16 = .ok (.getKeyOp 5) := by decide
theorem test_decode_setDelay : decode 0b1111_0101_0001_0101#16 = .ok (.setDelay 5) := by decide
theorem test_decode_setSound : decode 0b1111_0101_0001_1000#16 = .ok (.setSound 5) := by decide
theorem test_decode_addI : decode 0b1111_0101_0001_1110#16 = .ok (.addI 5) := by decide
theorem test_decode_loadFont : decode 0b1111_0101_0010_1001#16 = .ok (.loadFont 5) := by decide
theorem test_decode_bcd : decode 0b1111_0101_0011_0011#16 = .ok (.bcd 5) := by decide
theorem test_decode_memDump : decode 0b1111_0101_0101_0101#16 = .ok (.memDump 5) := by decide
theorem test_decode_memLoad : decode 0b1111_0101_0110_0101#16 = .ok (.memLoad 5) := by decide

/-! ### Illegal words (95_test_vectors.md 2.1), the encoder's examples, bytes and spelling -/

theorem test_decode_5AB1 : decode 0x5AB1#16 = .error ⟨0x5AB1#16⟩ := by decide
theorem test_decode_9ABF : decode 0x9ABF#16 = .error ⟨0x9ABF#16⟩ := by decide
theorem test_decode_8128 : decode 0x8128#16 = .error ⟨0x8128#16⟩ := by decide
theorem test_decode_812F : decode 0x812F#16 = .error ⟨0x812F#16⟩ := by decide
theorem test_decode_E59F : decode 0xE59F#16 = .error ⟨0xE59F#16⟩ := by decide
theorem test_decode_F566 : decode 0xF566#16 = .error ⟨0xF566#16⟩ := by decide
theorem test_decode_FFFF : decode 0xFFFF#16 = .error ⟨0xFFFF#16⟩ := by decide
theorem test_encode_shr_3_7 : encode (.rightShift 3 7) = some 0x8376#16 := by decide
theorem test_encode_drw_F_E_D : encode (.display 0xF 0xE 0xD) = some 0xDFED#16 := by decide
theorem test_encode_sknp_C : encode (.keyOpNeq 0xC) = some 0xECA1#16 := by decide
theorem test_encode_ld_F_i : encode (.memLoad 0xF) = some 0xFF65#16 := by decide
theorem test_encode_rawData : (InstrModel.rawData 0xFFFF#16).encode = some 0xFFFF#16 := by decide
theorem test_disassemble_illegal : disassembleWord 0xFFFF#16 = .rawData 0xFFFF#16 := by decide
theorem test_decodeBytes_big_endian : decodeBytes [0xD1#8, 0x25#8, 0x00#8] = .ok (.display 1 2 5, [0x00#8]) := by decide
theorem test_decodeTableWord : decodeTableWord 16 0xD125 = some (.display 1 2 5) := by decide
theorem test_spell_drw : spell (.display 0 1 5) = "drw v0, v1, 0x05" := by decide
theorem test_spell_ld : spell (.loadImm 0 1#8) = "ld v0, 0x01" := by decide
theorem test_relativeTarget : relativeTarget 0x200 2 = 0x204 := by decide
theorem test_dataSection : dataSection [0x1234#16] = [.instr (.jump 0x204#12), .rawData 0x1234#16] := by decide

/-! ### Small steps: the vectors of 95_test_vectors.md 2.2 to 2.6 -/

/-- One datum of the next state an outcome answers. -/
def look {α : Type} (f : State → α) : Host.Outcome State Fault Refusal → Option α
  | .next t => some (f t)
  | .fault _ => none
  | .refused _ => none

/-- What `look` finds, a next state has. -/
theorem next_of_look {α : Type} {f : State → α} {o : Host.Outcome State Fault Refusal} {a : α}
    (h : look f o = some a) : ∃ t, o = .next t ∧ f t = a := by
  cases o with
  | next t => exact ⟨t, rfl, Option.some.inj h⟩
  | fault _ => cases h
  | refused _ => cases h

/-- The reset state with registers set. -/
def withV (l : List (Reg × Byte)) : State := l.foldl (fun s p => s.setV p.1 p.2) State.reset

/-- The reset state with `I`, and bytes stored from `I` on. -/
def withI (i : Word) (bs : List Byte) (s : State) : State := (s.setI i).setMemory (s.memory.store i.toNat bs)

/-- The reset state with keys down. -/
def withKeys (l : List Key) (s : State) : State := 
  s.setKeypad (l.foldl (fun (k : Vector Bool 16) (j : Key) => k.set j.val true j.isLt) s.keypad)

theorem test_call : look (fun t => (t.stack, t.pc)) (exec (.call 0x210#12) State.reset)
    = some ([0x200#16], 0x210#16) := by decide
theorem test_ret : look (fun t => (t.stack, t.pc)) (exec .ret (State.reset.setStack [0x200#16]))
    = some ([], 0x202#16) := by decide
theorem test_ret_halts : look (fun t => (t.run, t.pc)) (exec .ret State.reset) = some (.stopped, 0x200#16) := by decide
theorem test_jumpV0_far : look (fun t => t.pc) (exec (.jumpV0 0xFFF#12) (withV [(0, 0xFF#8)])) = some 0x10FE#16 := by
  decide
theorem test_jumpV0 : look (fun t => t.pc) (exec (.jumpV0 0x300#12) (withV [(0, 4#8)])) = some 0x304#16 := by decide
theorem test_jump : look (fun t => t.pc) (exec (.jump 0x300#12) State.reset) = some 0x300#16 := by decide
theorem test_ifEq_taken : look (fun t => t.pc) (exec (.ifEq 3 0x10#8) (withV [(3, 0x10#8)])) = some 0x204#16 := by decide
theorem test_ifEq_not : look (fun t => t.pc) (exec (.ifEq 3 0x10#8) (withV [(3, 0x11#8)])) = some 0x202#16 := by decide
theorem test_ifNeq_taken : look (fun t => t.pc) (exec (.ifNeq 3 0x10#8) (withV [(3, 0x11#8)])) = some 0x204#16 := by
  decide
theorem test_ifEqReg_same : look (fun t => t.pc) (exec (.ifEqReg 2 2) State.reset) = some 0x204#16 := by decide
theorem test_ifNeqReg_same : look (fun t => t.pc) (exec (.ifNeqReg 2 2) State.reset) = some 0x202#16 := by decide
theorem test_ifNeqReg_taken : look (fun t => t.pc) (exec (.ifNeqReg 0 1) (withV [(0, 1#8), (1, 2#8)]))
    = some 0x204#16 := by decide
theorem test_sys : look (fun t => t.run) (step (State.reset.withFetchWord 16 0x0123))
    = some (.failed (.unimplementedOpcode 0x0123#16 (.instr (.sys 0x123#12)))) := by decide
theorem test_rawData : look (fun t => t.run) (execRawData 0xFFFF#16 State.reset)
    = some (.failed (.unimplementedOpcode 0xFFFF#16 (.rawData 0xFFFF#16))) := by decide
theorem test_unknown : look (fun t => (t.run, t.pc)) (step (State.reset.withFetchWord 16 0x8008))
    = some (.failed (.unknownOpcode 0x8008#16), 0x200#16) := by decide
theorem test_fetch_at_FFE : look (fun t => t.run) (step ((State.reset.setPc 0xFFE#16).withFetchWord 16 0x00EE))
    = some .stopped := by decide
theorem test_fetch_at_FFF : look (fun t => t.run) (step (State.reset.setPc 0xFFF#16))
    = some (.failed (.fetchOutOfBounds 0xFFF#16)) := by decide
theorem test_fetch_odd : look (fun t => t.I) (step ((State.reset.setPc 0x201#16).withFetchWord 16 0xA123))
    = some 0x123#16 := by decide

theorem test_loadImm : look (fun t => t.getV 0) (exec (.loadImm 0 1#8) State.reset) = some 1#8 := by decide
theorem test_add_wraps : look (fun t => (t.getV 0, t.getV VF)) (exec (.add 0 1#8) (withV [(0, 0xFF#8), (VF, 7#8)]))
    = some (0#8, 7#8) := by decide
theorem test_add_to_VF : look (fun t => t.getV VF) (exec (.add VF 2#8) (withV [(VF, 3#8)])) = some 5#8 := by decide
theorem test_loadReg : look (fun t => t.getV 0) (exec (.loadReg 0 1) (withV [(1, 7#8)])) = some 7#8 := by decide
theorem test_or : look (fun t => (t.getV 0, t.getV VF))
    (exec (.or 0 1) (withV [(0, 0x0F#8), (1, 0xF0#8), (VF, 7#8)])) = some (0xFF#8, 7#8) := by decide
theorem test_and : look (fun t => t.getV 0) (exec (.and 0 1) (withV [(0, 0x3C#8), (1, 0x0F#8)])) = some 0x0C#8 := by
  decide
theorem test_xor : look (fun t => t.getV 0) (exec (.xor 0 1) (withV [(0, 0xFF#8), (1, 0x0F#8)])) = some 0xF0#8 := by
  decide
theorem test_addReg_carry : look (fun t => (t.getV 0, t.getV VF)) (exec (.addReg 0 1) (withV [(0, 200#8), (1, 100#8)]))
    = some (44#8, 1#8) := by decide
theorem test_addReg_flagLast : look (fun t => t.getV VF) (exec (.addReg VF 1) (withV [(VF, 0xFF#8), (1, 1#8)]))
    = some 1#8 := by decide
theorem test_sub_borrow : look (fun t => (t.getV 1, t.getV VF)) (exec (.sub 1 0) (withV [(0, 10#8), (1, 5#8)]))
    = some (251#8, 1#8) := by decide
theorem test_sub_equal : look (fun t => (t.getV 0, t.getV VF)) (exec (.sub 0 1) (withV [(0, 5#8), (1, 5#8)]))
    = some (0#8, 0#8) := by decide
theorem test_subSelf_borrow : look (fun t => (t.getV 0, t.getV VF)) (exec (.subSelf 0 1) (withV [(0, 10#8), (1, 5#8)]))
    = some (251#8, 1#8) := by decide
theorem test_rightShift : look (fun t => (t.getV 0, t.getV VF)) (exec (.rightShift 0 1) (withV [(0, 5#8), (1, 0xF0#8)]))
    = some (2#8, 1#8) := by decide
theorem test_leftShift_raw_bit : look (fun t => (t.getV 0, t.getV VF)) (exec (.leftShift 0 0) (withV [(0, 0x81#8)]))
    = some (2#8, 0x80#8) := by decide
theorem test_leftShift_resultLast :
    look (fun t => t.getV VF)
      (execLeftShiftWith { Config.params with vfWriteOrder := .resultLast } VF VF (withV [(VF, 0x81#8)]))
    = some 2#8 := by decide
theorem test_leftShift_normalised :
    look (fun t => t.getV VF) (execLeftShiftWith { Config.params with shlVfNormalise := true } 0 0 (withV [(0, 0x81#8)]))
    = some 1#8 := by decide
theorem test_random_mask_0 : look (fun t => t.getV 0) (exec (.random 0 0#8) (withV [(0, 9#8)])) = some 0#8 := by
  simp [look, exec, execRandom, State.getV, State.advance, State.setV, State.setPc, State.setDraws]
theorem test_random_draws : look (fun t => (t.draws, t.pc)) (exec (.random 0 0xFF#8) State.reset)
    = some (1, 0x202#16) := by decide

theorem test_loadI : look (fun t => t.I) (exec (.loadI 0x300#12) State.reset) = some 0x300#16 := by decide
theorem test_addI : look (fun t => t.I) (exec (.addI 2) ((withV [(2, 0x10#8)]).setI 0x300#16)) = some 0x310#16 := by decide
theorem test_addI_wraps : look (fun t => (t.I, t.getV VF)) (exec (.addI 0) ((withV [(0, 1#8)]).setI 0xFFFF#16))
    = some (0#16, 0#8) := by decide
theorem test_loadFont : look (fun t => t.I) (exec (.loadFont 1) (withV [(1, 5#8)])) = some 0x019#16 := by decide
theorem test_loadFont_F : look (fun t => t.I) (exec (.loadFont 1) (withV [(1, 0xF#8)])) = some 0x04B#16 := by decide
theorem test_bcd : look (fun t => [0x400, 0x401, 0x402].map t.memory.read)
    (exec (.bcd 0) ((withV [(0, 254#8)]).setI 0x400#16)) = some [2#8, 5#8, 4#8] := by decide
theorem test_bcd_outside : look (fun t => (t.run, t.memory)) (exec (.bcd 0) (State.reset.setI 0xFFE#16))
    = some (.failed (.memoryOutOfBounds 0x1000), []) := by decide
theorem test_memDump : look (fun t => ([0x300, 0x301, 0x302].map t.memory.read, t.I))
    (exec (.memDump 1) ((withV [(0, 1#8), (1, 2#8), (2, 9#8)]).setI 0x300#16))
    = some ([1#8, 2#8, 0#8], 0x300#16) := by decide
theorem test_memDump_outside : look (fun t => t.run) (exec (.memDump VF) (State.reset.setI 0xFF1#16))
    = some (.failed (.memoryOutOfBounds 0x1000)) := by decide
theorem test_memLoad : look (fun t => [0, 1, 2, 3].map t.getV) (exec (.memLoad 2) (withI 0x400#16 [1, 2, 3, 4] State.reset))
    = some [1#8, 2#8, 3#8, 0#8] := by decide
theorem test_memory_canonical : (State.reset.memory.store 0x4F [0x80#8, 1#8]) = [(0x50, 1#8)] := by decide
theorem test_font_bytes : (List.range 81).map State.reset.memory.read =
    [0xF0#8, 0x90, 0x90, 0x90, 0xF0, 0x20, 0x60, 0x20, 0x20, 0x70] ++
    [0xF0, 0x10, 0xF0, 0x80, 0xF0, 0xF0, 0x10, 0xF0, 0x10, 0xF0] ++
    [0x90, 0x90, 0xF0, 0x10, 0x10, 0xF0, 0x80, 0xF0, 0x10, 0xF0] ++
    [0xF0, 0x80, 0xF0, 0x90, 0xF0, 0xF0, 0x10, 0x20, 0x40, 0x40] ++
    [0xF0, 0x90, 0xF0, 0x90, 0xF0, 0xF0, 0x90, 0xF0, 0x10, 0xF0] ++
    [0xF0, 0x90, 0xF0, 0x90, 0x90, 0xE0, 0x90, 0xE0, 0x90, 0xE0] ++
    [0xF0, 0x80, 0x80, 0x80, 0xF0, 0xE0, 0x90, 0x90, 0x90, 0xE0] ++
    [0xF0, 0x80, 0xF0, 0x80, 0xF0, 0xF0, 0x80, 0xF0, 0x80, 0x80] ++ [0x00] := by decide

theorem test_clear : look (fun t => (t.fb, t.shouldRender)) (exec .clear { State.reset with fb := [3, 70] })
    = some ([], true) := by decide
theorem test_display_lights : look (fun t => (t.fb, t.getV VF, t.shouldRender))
    (exec (.display 0 1 1) (withI 0x300#16 [0x80] State.reset)) = some ([0], 0#8, true) := by decide
theorem test_display_collides : look (fun t => (t.fb, t.getV VF))
    (exec (.display 0 1 1) { withI 0x300#16 [0x80] State.reset with fb := [0] }) = some ([], 1#8) := by decide
theorem test_display_wraps : look (fun t => t.fb)
    (exec (.display 0 1 1) (withI 0x300#16 [0xFF] (withV [(0, 60#8), (1, 31#8)])))
    = some [1984, 1985, 1986, 1987, 2044, 2045, 2046, 2047] := by decide
theorem test_display_top_of_memory : look (fun t => t.pixel 6 6)
    (exec (.display 0 0 1) (withI 0xFFF#16 [0x80] (withV [(0, 70#8)]))) = some true := by decide
theorem test_display_outside : look (fun t => (t.run, t.fb)) (exec (.display 0 1 3) (State.reset.setI 0xFFE#16))
    = some (.failed (.memoryOutOfBounds 0x1000), []) := by decide
theorem test_display_no_rows : look (fun t => (t.fb, t.getV VF, t.shouldRender))
    (exec (.display 0 1 0) ((withV [(VF, 9#8)]).setI 0xFFFF#16)) = some ([], 0#8, true) := by decide

theorem test_getKey_waits : look (fun t => t.pc) (exec (.getKeyOp 2) State.reset) = some 0x200#16 := by decide
theorem test_getKey_lowest : look (fun t => (t.getV 2, t.pc)) (exec (.getKeyOp 2) (withKeys [7, 3] State.reset))
    = some (3#8, 0x202#16) := by decide
theorem test_skp_lowest_only : look (fun t => t.pc) (exec (.keyOpEq 0) (withKeys [3, 5] (withV [(0, 5#8)])))
    = some 0x202#16 := by decide
theorem test_skp_taken : look (fun t => t.pc) (exec (.keyOpEq 0) (withKeys [5] (withV [(0, 5#8)]))) = some 0x204#16 := by
  decide
theorem test_sknp_no_key : look (fun t => t.pc) (exec (.keyOpNeq 0) (withV [(0, 5#8)])) = some 0x204#16 := by decide
theorem test_sknp_key : look (fun t => t.pc) (exec (.keyOpNeq 0) (withKeys [5] (withV [(0, 5#8)]))) = some 0x202#16 := by
  decide
theorem test_setDelay : look (fun t => t.DT) (exec (.setDelay 0) (withV [(0, 60#8)])) = some 60#8 := by decide
theorem test_getDelay : look (fun t => t.getV 1) (exec (.getDelay 1) (State.reset.setDT 0x3C#8)) = some 0x3C#8 := by decide
theorem test_setSound : look (fun t => (t.ST, t.sound)) (exec (.setSound 0) (withV [(0, 2#8)])) = some (2#8, true) := by
  decide
theorem test_tick : look (fun t => (t.DT, t.ST)) (tick ((State.reset.setDT 1#8).setST 2#8)) = some (0#8, 1#8) := by decide
theorem test_tick_no_underflow : look (fun t => (t.DT, t.ST)) (tick State.reset) = some (0#8, 0#8) := by decide

/-! ### Witnesses: for every statement with hypotheses, concrete data that meet them, at the values where clauses meet -/

/-- The reset state with a word at its `pc`. -/
def at0 (w : Nat) : State := State.reset.withFetchWord 16 w

theorem wit_EncodeThenDecodeRoundTrip :
    (Instr.sys 0x0DF#12).wf = true ∧ (Instr.sys 0x0EF#12).wf = true ∧ decode 0x00EF#16 = .ok (.sys 0x0EF#12) := by decide
theorem wit_IllegalWords : decode 0x5AB1#16 = .error ⟨0x5AB1#16⟩ := by decide
theorem wit_InstructionBytes : (Instr.display 1 2 5).wf = true ∧ [0x12#8].length < 2 := by decide
theorem wit_StepRuns_outside : (State.reset.setPc 0xFFF#16).run = .running ∧
    4096 ≤ (State.reset.setPc 0xFFF#16).pc.toNat + 1 := by decide
theorem wit_StepRuns_inside :
    let s := (State.reset.setPc 0xFFE#16).withFetchWord 16 0x6001
    s.run = .running ∧ s.pc.toNat + 1 < 4096 ∧
      (0x6001#16).toNat = (s.memory.read s.pc.toNat).toNat * 256 + (s.memory.read (s.pc.toNat + 1)).toNat ∧
      decode 0x6001#16 = .ok (.loadImm 0 1#8) := by decide
theorem wit_StepRuns_illegal :
    (0x5AB1#16).toNat = ((at0 0x5AB1).memory.read 0x200).toNat * 256 + ((at0 0x5AB1).memory.read 0x201).toNat ∧
      decode 0x5AB1#16 = .error ⟨0x5AB1#16⟩ := by decide
theorem wit_StepRuns_sys : (at0 0).fetch = some 0#16 ∧ decode 0#16 = .ok (.sys 0#12) := by decide
theorem wit_ErrorStep : ∃ t, step (at0 0x5AB1) = .next t ∧ t.run = .failed (.unknownOpcode 0x5AB1#16) :=
  next_of_look (f := fun t => t.run) (by decide)
theorem wit_StopExactly : ∃ t, step (at0 0x00EE) = .next t ∧ t.run = .stopped :=
  next_of_look (f := fun t => t.run) (by decide)
theorem wit_EndedRun : (State.reset.setRun .stopped).run ≠ .running ∧
    (State.reset.setRun (.failed (.memoryOutOfBounds 4096))).run ≠ .running ∧ HostAction.step ≠ .clearRender := by decide
theorem wit_ErrorsFollow_memory : ∃ t, step ((at0 0xF033).setI 0xFFE#16) = .next t ∧
    t.run = .failed (.memoryOutOfBounds 4096) := next_of_look (f := fun t => t.run) (by decide)
theorem wit_ErrorsFollow_none : ∃ t, step ((at0 0xF033).setI 0xFFD#16) = .next t ∧ t.run = .running :=
  next_of_look (f := fun t => t.run) (by decide)
theorem wit_Inv : (at0 0x6001).Inv := ⟨by decide, by decide, by decide, fun _ h => absurd h List.not_mem_nil⟩
theorem wit_Inv_full : ({ State.reset with fb := [0, 2047], pc := 0x10FE#16, stack := [0xFFE#16, 0#16] } : State).Inv :=
  ⟨by decide, by decide, by decide, by simp⟩
theorem wit_StepKeepsTheInvariant : (at0 0xBFFF).Inv ∧ ∃ t, step (at0 0xBFFF) = .next t ∧ t.pc = 0xFFF#16 :=
  ⟨⟨by decide, by decide, by decide, fun _ h => absurd h List.not_mem_nil⟩, next_of_look (f := fun t => t.pc) (by decide)⟩
theorem wit_construct : ∃ s, construct [0x60#8, 0x01#8, 0x00#8] = some s := ⟨_, rfl⟩
theorem wit_HostActions : (∃ t, act .decrementRegisters State.reset = .next t) ∧
    (∃ t, act (.keyDown 15) State.reset = .next t) ∧ (∃ t, act (.keyUp 0) State.reset = .next t) ∧
    (∃ t, act .clearRender State.reset = .next t) ∧ (∃ t, act .step State.reset = .next t) :=
  ⟨⟨_, rfl⟩, ⟨_, rfl⟩, ⟨_, rfl⟩, ⟨_, rfl⟩, ⟨_, rfl⟩⟩
theorem wit_EveryRun : ∃ s t, construct [0xBF#8, 0xFF#8] = some s ∧ Reaches s t ∧ t.pc = 0xFFF#16 :=
  ⟨_, _, rfl, ⟨[.keyDown 1, .step], rfl⟩, by decide⟩
theorem wit_EveryRun_outside : (State.reset.setPc 0xFFF#16).run = .running ∧ 0xFFE < (State.reset.setPc 0xFFF#16).pc.toNat := by
  decide
theorem wit_CanonicalForms : Memory.wf [(0x200, 1#8), (0xFFF, 2#8)] ∧ Framebuffer.wf [0, 2047] := by decide
theorem wit_OnlyIndex : ∃ t, exec (.loadI 5#12) State.reset = .next t ∧ t.I ≠ State.reset.I := ⟨_, rfl, by decide⟩
theorem wit_OnlyClearAndDisplay : ∃ t, exec .clear State.reset = .next t ∧ t.shouldRender ≠ State.reset.shouldRender :=
  ⟨_, rfl, by decide⟩
theorem wit_RenderFlagStays : ∃ t, step ((at0 0x6001).setRender true) = .next t ∧ t.shouldRender = true :=
  next_of_look (f := fun t => t.shouldRender) (by decide)
theorem wit_OnlyCallAndReturn : ∃ t, exec (.call 0#12) State.reset = .next t ∧ t.stack ≠ State.reset.stack :=
  ⟨_, rfl, by decide⟩
theorem wit_Timers : (∃ t, exec (.setDelay 0) (withV [(0, 1#8)]) = .next t ∧ t.DT ≠ 0#8) ∧
    (∃ t, exec (.setSound 0) (withV [(0, 1#8)]) = .next t ∧ t.ST ≠ 0#8) :=
  ⟨⟨_, rfl, by decide⟩, ⟨_, rfl, by decide⟩⟩
theorem wit_OnlyBcdAndMemDump : ∃ t, exec (.bcd 0) (State.reset.setI 0#16) = .next t ∧
    t.memory.read 0 ≠ State.reset.memory.read 0 := ⟨_, rfl, by decide⟩
theorem wit_RegistersChange : ∃ t, exec (.addReg 1 0) (withV [(0, 0xFF#8), (1, 1#8)]) = .next t ∧
    t.getV VF ≠ (withV [(0, 0xFF#8), (1, 1#8)]).getV VF := ⟨_, rfl, by decide⟩
theorem wit_PcEffect : ∃ t, exec .ret State.reset = .next t ∧ ∀ e, t.run ≠ .failed e :=
  ⟨_, rfl, by intro e h; cases h⟩
theorem wit_SoundTimer : ∃ t, step (at0 0xF018) = .next t ∧ t.run = .running :=
  next_of_look (f := fun t => t.run) (by decide)
theorem wit_WriteOrder : (0 : Reg) ≠ VF ∧ Config.params.vfWriteOrder = .flagLast ∧
    ({ Config.params with vfWriteOrder := .resultLast } : Config.Params).vfWriteOrder = .resultLast := by decide
theorem wit_StackLimit : ({ Config.params with stackLimit := some 0 } : Config.Params).stackLimit =
    some State.reset.stack.length ∧ Config.params.stackLimit ≠ some State.reset.stack.length := by decide
theorem wit_Return : State.reset.stack = [] ∧ (State.reset.setStack [0xFFE#16]).stack = [0xFFE#16] ∧
    (State.reset.setStack [0xFFE#16]).Inv :=
  ⟨rfl, rfl, by decide, by decide, by decide, by simp [State.setStack]⟩
theorem wit_CallThenReturn : ∃ t, exec (.call 0x300#12) State.reset = .next t ∧
    (withV [(0, 1#8)]).setStack t.stack ≠ t ∧ ((withV [(0, 1#8)]).setStack t.stack).stack = t.stack :=
  ⟨_, rfl, by decide, rfl⟩
theorem wit_Sys : (0x0E1#12) ≠ 0x0E0#12 ∧ (0x0E1#12) ≠ 0x0EE#12 := by decide
theorem wit_Hang_jump : (at0 0x1200).run = .running ∧ (at0 0x1200).fetch = some 0x1200#16 ∧
    decode 0x1200#16 = .ok (.jump 0x200#12) ∧ (0x200#12).toNat = (at0 0x1200).pc.toNat := by decide
theorem wit_Hang_key : (at0 0xF20A).fetch = some 0xF20A#16 ∧ decode 0xF20A#16 = .ok (.getKeyOp 2) ∧
    ∀ j : Key, (at0 0xF20A).keypad[j] = false := by decide
theorem wit_Bcd : (0xFFD#16).toNat + 2 < 4096 ∧ 4096 ≤ (0xFFE#16).toNat + 2 := by decide
theorem wit_Block : (0xFF0#16).toNat + (15 : Reg).val < 4096 ∧ 4096 ≤ (0xFF1#16).toNat + (15 : Reg).val ∧
    (0xFFF#16).toNat + (0 : Reg).val < 4096 := by decide
theorem wit_DumpThenLoad : ∃ t, exec (.memDump 1) (State.reset.setI 0x300#16) = .next t ∧
    (withV [(0, 9#8)]).I ≠ t.I ∧ (((withV [(0, 9#8)]).setI t.I).setMemory t.memory).I = t.I ∧
    ∀ a, (((withV [(0, 9#8)]).setI t.I).setMemory t.memory).memory.read a = t.memory.read a :=
  ⟨_, rfl, by decide, rfl, fun _ => rfl⟩
theorem wit_StoreIsSeen : 1 ≤ (1 : Reg).val ∧ State.reset.pc.toNat + 3 < 4096 ∧
    (State.reset.setI 0x202#16).I.toNat = State.reset.pc.toNat + 2 ∧
    ∃ t, exec (.memDump 1) (State.reset.setI 0x202#16) = .next t := ⟨by decide, by decide, by decide, _, rfl⟩
theorem wit_Display : (0xFF1#16).toNat + (15 : Nibble).val - 1 < 4096 ∧ 0 < (15 : Nibble).val ∧
    4096 ≤ (0xFF2#16).toNat + (15 : Nibble).val - 1 := by decide
theorem wit_DrawingTwice : (0 : Reg) ≠ VF ∧ (1 : Reg) ≠ VF ∧ (0xFFF#16).toNat + (1 : Nibble).val ≤ 4096 ∧
    ∃ t, exec (.display 0 1 1) (withI 0xFFF#16 [0x80] State.reset) = .next t :=
  ⟨by decide, by decide, by decide, _, rfl⟩
theorem wit_LowestKey : lowestKey (withKeys [15] State.reset).keypad = some 15 ∧ lowestKey State.reset.keypad = none := by
  decide
/-- The parameters with a return stack of no entry. -/
def limit0 : Config.Params := { Config.params with stackLimit := some 0 }

theorem test_call_overflow : look (fun t => (t.run, t.pc, t.stack)) (stepWith limit0 (at0 0x2300))
    = some (.failed (.stackOverflow 0x200#16), 0x200#16, []) := by decide
theorem test_stepWith_shl_normalised :
    look (fun t => (t.getV 0, t.getV VF))
      (stepWith { Config.params with shlVfNormalise := true } ((withV [(0, 0x81#8)]).withFetchWord 16 0x800E))
    = some (2#8, 1#8) := by decide
theorem test_stepWith_drw_keeps_VF :
    look (fun t => (t.fb, t.getV VF))
      (stepWith { Config.params with drwVfClear := false } ((withV [(VF, 9#8)]).withFetchWord 16 0xD011))
    = some ([0, 1, 2, 3], 9#8) := by decide
theorem wit_ParametersReach : readsParameter .clear = false ∧ (at0 0x2300).run = .running ∧
    (at0 0x2300).fetch = some 0x2300#16 ∧ decode 0x2300#16 = .ok (.call 0x300#12) := by decide
theorem wit_ErrorsUnderEveryParameter :
    (∃ t, stepWith limit0 (at0 0x2300) = .next t ∧ t.run = .failed (.stackOverflow 0x200#16)) ∧
    (∃ t, stepWith limit0 (at0 0x5AB1) = .next t ∧ t.run = .failed (.unknownOpcode 0x5AB1#16)) ∧
    (∃ t, stepWith limit0 (at0 0x6001) = .next t ∧ t.run = .running) :=
  ⟨next_of_look (f := fun t => t.run) (by decide), next_of_look (f := fun t => t.run) (by decide),
    next_of_look (f := fun t => t.run) (by decide)⟩
theorem wit_EveryParameterKeeps : (at0 0x2300).Inv ∧
    StackWithinLimit { Config.params with stackLimit := some 1 } (at0 0x2300) ∧
    ∃ t, stepWith { Config.params with stackLimit := some 1 } (at0 0x2300) = .next t ∧ t.stack = [0x200#16] :=
  ⟨⟨by decide, by decide, by decide, fun _ h => absurd h List.not_mem_nil⟩, fun _ _ => Nat.zero_le _,
    next_of_look (f := fun t => t.stack) (by decide)⟩
theorem wit_EveryParameterKeeps_run : ∃ s t, construct [0x22#8, 0x00#8] = some s ∧
    ReachesWith { Config.params with stackLimit := some 1 } s t ∧ t.run = .failed (.stackOverflow 0x200#16) :=
  ⟨_, _, rfl, ⟨[.step, .step], rfl⟩, by decide⟩
theorem wit_Running : State.reset.run = .running := by decide
theorem wit_Construct : (List.replicate 3584 0#8).length ≤ 3584 ∧ 3584 < (List.replicate 3585 0#8).length := by
  simp only [List.length_replicate]; decide

end Sys2Proof.Tests
end

section
/-! Scope (spec/00_scope.md R7, R11): a running machine answers every step, and the parameters reach every step. -/

namespace Sys2Proof.Machine

/-! ### A running machine answers (R11, R150) -/

/-- An access through `I` answers on both sides of the check: with its result, or with the error taken (R73, R363). -/
theorem withMemory_answers (count : Nat) (s k : State) : ∃ t, withMemory count s k = .next t := by
  cases h : inRange s.I.toNat count with
  | true => exact ⟨_, withMemory_inRange h k⟩
  | false => exact ⟨_, withMemory_outside h k⟩

theorem execRet_answers (s : State) : ∃ t, execRet s = .next t := by
  unfold execRet
  split
  · exact ⟨_, rfl⟩
  · exact ⟨_, rfl⟩

theorem execCallWith_answers (p : Config.Params) (nnn : Addr) (s : State) : ∃ t, execCallWith p nnn s = .next t := by
  unfold execCallWith
  split
  · exact ⟨_, raise_eq _ _⟩
  · exact ⟨_, rfl⟩

theorem execGetKeyOp_answers (x : Reg) (s : State) : ∃ t, execGetKeyOp x s = .next t := by
  unfold execGetKeyOp
  split
  · exact ⟨_, rfl⟩
  · exact ⟨_, rfl⟩

/-- No instruction faults or is refused, whatever the parameters: an error it raises is a next state (R363). -/
theorem execWith_answers (p : Config.Params) (i : Instr) (s : State) : ∃ t, execWith p i s = .next t := by
  cases i
  case ret => exact execRet_answers s
  case call nnn => exact execCallWith_answers p nnn s
  case getKeyOp x => exact execGetKeyOp_answers x s
  case display | bcd | memDump | memLoad => exact withMemory_answers _ s _
  all_goals exact ⟨_, rfl⟩

/-- A running machine answers a step as soon as the execution it is given always answers: the fetch and the decoder take
their errors themselves. -/
theorem stepCycle_answers {ex : Instr → State → Host.Outcome State Fault Refusal} {s : State}
    (hex : ∀ i, ∃ t, ex i s = .next t) (hr : s.run = .running) : ∃ t, stepCycle ex s = .next t := by
  cases hf : s.fetch with
  | none => exact ⟨_, stepCycle_unfetched hr hf⟩
  | some w =>
    cases hd : decode w with
    | error e => exact ⟨_, stepCycle_undecoded hr hf hd⟩
    | ok i => rw [stepCycle_decoded hr hf hd]; exact hex i

theorem stepWith_answers (p : Config.Params) {s : State} (hr : s.run = .running) : ∃ t, stepWith p s = .next t :=
  stepCycle_answers (fun i => execWith_answers p i s) hr

/-- Settles O9: a step at the defaults is a step under parameters, and under all of them a running machine answers. -/
theorem stepAlwaysAnswersWhileRunning : Obligations.StepAlwaysAnswersWhileRunning := by
  intro s hr
  rw [← stepWith_params]
  exact stepWith_answers Config.params hr

/-! ### The parameters (R7) -/

/-- At the defaults of R7 an action of the host under parameters is `act`: only the step takes them. -/
@[simp] theorem actWith_params (a : HostAction) (s : State) : actWith Config.params a s = act a s := by
  cases a with
  | step => exact stepWith_params s
  | decrementRegisters | keyDown k | keyUp k | clearRender => rfl

theorem stepWith_decoded (p : Config.Params) {s : State} {w : Word} {i : Instr} (hr : s.run = .running)
    (hf : s.fetch = some w) (hd : decode w = .ok i) : stepWith p s = execWith p i s :=
  stepCycle_decoded hr hf hd

/-- Settles O57, clause by clause: the three machines at the defaults, the instructions that read no parameter, the seven
that do (each arm of `execWith` is that meaning), and the step that hands its parameters on. -/
theorem parametersReachEveryStep : Obligations.ParametersReachEveryStep :=
  ⟨execWith_params, stepWith_params, actWith_params,
    fun p _ s h => execWith_of_readsParameter_eq_false h p s,
    fun _ _ _ _ _ _ => ⟨rfl, rfl, rfl, rfl, rfl, rfl, rfl⟩,
    fun p _ _ _ hr hf hd => stepWith_decoded p hr hf hd⟩

end Sys2Proof.Machine
end

section
/-! Who writes what (spec/10_state.md R30–R42): for every instruction and every value of the parameters, the parts of the
state and the registers it may write, and what it can leave in them. -/

namespace Sys2Proof.Machine

/-! ### What the instructions that branch can answer -/

theorem execRet_nil {s : State} (h : s.stack = []) : execRet s = .next (s.setRun .stopped) := by
  simp only [execRet, h]

theorem execRet_cons {s : State} {a : Word} {rest : List Word} (h : s.stack = a :: rest) :
    execRet s = .next ((s.setStack rest).setPc (a + 2#16)) := by
  simp only [execRet, h]

theorem execGetKeyOp_some {s : State} {k : Key} (h : lowestKey s.keypad = some k) (x : Reg) :
    execGetKeyOp x s = .next (s.setV x (BitVec.ofNat 8 k.val)).advance := by
  simp only [execGetKeyOp, h]

theorem execGetKeyOp_none {s : State} (h : lowestKey s.keypad = none) (x : Reg) : execGetKeyOp x s = .next s := by
  simp only [execGetKeyOp, h]

/-- All that `Return` can do (R152, R364). -/
theorem execRet_cases {s t : State} (h : execRet s = .next t) :
    (s.stack = [] ∧ t = s.setRun .stopped) ∨
    (∃ a rest, s.stack = a :: rest ∧ t = (s.setStack rest).setPc (a + 2#16)) := by
  cases hs : s.stack with
  | nil => rw [execRet_nil hs] at h; cases h; exact .inl ⟨rfl, rfl⟩
  | cons a rest => rw [execRet_cons hs] at h; cases h; exact .inr ⟨a, rest, rfl, rfl⟩

/-- All that `Call` can do (R154). -/
theorem execCallWith_cases {p : Config.Params} {nnn : Addr} {s t : State} (h : execCallWith p nnn s = .next t) :
    (p.stackLimit = some s.stack.length ∧ t = s.setRun (.failed (.stackOverflow s.pc))) ∨
    (p.stackLimit ≠ some s.stack.length ∧ t = (s.setStack (s.pc :: s.stack)).setPc (zextAddr nnn)) := by
  unfold execCallWith at h
  split at h <;> cases h
  · exact .inl ⟨‹_›, rfl⟩
  · exact .inr ⟨‹_›, rfl⟩

/-- All that `GetKeyOp` can do (R323). -/
theorem execGetKeyOp_cases {x : Reg} {s t : State} (h : execGetKeyOp x s = .next t) :
    (∃ k, lowestKey s.keypad = some k ∧ t = (s.setV x (BitVec.ofNat 8 k.val)).advance) ∨
    (lowestKey s.keypad = none ∧ t = s) := by
  cases hk : lowestKey s.keypad with
  | some k => rw [execGetKeyOp_some hk] at h; cases h; exact .inl ⟨k, rfl, rfl⟩
  | none => rw [execGetKeyOp_none hk] at h; cases h; exact .inr ⟨rfl, rfl⟩

/-! ### The frame of an instruction -/

/-- The parts of the state an instruction may write; `run` where it may end the run. -/
def writtenParts : Instr → List Part
  | .clear => [.fb, .shouldRender]
  | .display _ _ _ => [.fb, .shouldRender, .run]
  | .ret | .call _ => [.stack, .run]
  | .sys _ | .memLoad _ => [.run]
  | .bcd _ | .memDump _ => [.memory, .run]
  | .loadI _ | .addI _ | .loadFont _ => [.I]
  | .random _ _ => [.draws]
  | .setDelay _ => [.DT]
  | .setSound _ => [.ST]
  | .jump _ | .ifEq _ _ | .ifNeq _ _ | .ifEqReg _ _ | .loadImm _ _ | .add _ _ | .loadReg _ _ | .or _ _ | .and _ _
  | .xor _ _ | .addReg _ _ | .sub _ _ | .rightShift _ _ | .subSelf _ _ | .leftShift _ _ | .ifNeqReg _ _ | .jumpV0 _
  | .keyOpEq _ | .keyOpNeq _ | .getDelay _ | .getKeyOp _ => []

/-- The registers an instruction may write: those it names (R30), and `VF` where it writes a flag (R31). -/
def writtenRegs (i : Instr) : List Reg := namedDestinations i ++ if writesFlag i then [VF] else []

/-- `t` differs from `s` at most in `pc` and in what `i` may write. An unwritten memory is the same list, which is more
than `Keeps` says of it. -/
structure Frame (i : Instr) (s t : State) : Prop where
  parts : KeepsAllBut (writtenParts i) s t
  memory : .memory ∉ writtenParts i → t.memory = s.memory
  regs : KeepsRegsBut (writtenRegs i) s t

/-- `getV_setV_other` from the side of the register that is read, as the frame's hypotheses have it. -/
theorem State.getV_setV_of_ne {x y : Reg} (h : y ≠ x) (s : State) (b : Byte) : (s.setV x b).getV y = s.getV y :=
  s.getV_setV_other h.symm b

theorem State.getV_setResultFlag_of_ne {x y : Reg} (hx : y ≠ x) (hv : y ≠ VF) (s : State) (o : Config.VfWriteOrder)
    (r f : Byte) : (s.setResultFlag o x r f).getV y = s.getV y := by
  simp [getV_setResultFlag, hx, hv]

theorem State.getV_loadBlock_of_lt {x y : Reg} (h : x < y) (s : State) : (s.loadBlock x).getV y = s.getV y := by
  simp [State.getV_loadBlock, not_le.2 h]

/-- Ending the run is within the frame of every instruction that may end it. -/
theorem frame_setRun {i : Instr} (h : .run ∈ writtenParts i) (s : State) (r : RunState) : Frame i s (s.setRun r) where
  parts q hq := by
    cases q with
    | run => exact absurd h hq
    | _ => simp [Keeps]
  memory _ := rfl
  regs _ _ := rfl

/-- Every instruction stays within its frame, whatever the parameters. -/
theorem execWith_frame {p : Config.Params} {i : Instr} {s t : State} (h : execWith p i s = .next t) : Frame i s t := by
  cases i
  case ret =>
    rcases execRet_cases h with ⟨-, rfl⟩ | ⟨a, rest, -, rfl⟩
    · exact frame_setRun (by simp [writtenParts]) s _
    · exact ⟨fun q => by cases q <;> simp [writtenParts, Keeps], fun _ => rfl, fun _ _ => rfl⟩
  case sys nnn => cases h; exact frame_setRun (by simp [writtenParts]) s _
  case call nnn =>
    rcases execCallWith_cases h with ⟨-, rfl⟩ | ⟨-, rfl⟩
    · exact frame_setRun (by simp [writtenParts]) s _
    · exact ⟨fun q => by cases q <;> simp [writtenParts, Keeps], fun _ => rfl, fun _ _ => rfl⟩
  case getKeyOp x =>
    rcases execGetKeyOp_cases h with ⟨k, -, rfl⟩ | ⟨-, rfl⟩
    · exact ⟨fun q => by cases q <;> simp [writtenParts, Keeps], fun _ => rfl, fun r => by
        simp +contextual [writtenRegs, namedDestinations, writesFlag, State.getV_setV_of_ne]⟩
    · exact ⟨fun q _ => by cases q <;> simp [Keeps], fun _ => rfl, fun _ _ => rfl⟩
  case bcd | memDump | memLoad | display =>
    rcases withMemory_cases h with ⟨-, rfl⟩ | ⟨-, rfl⟩
    · exact ⟨fun q => by cases q <;> simp [writtenParts, Keeps], by simp [writtenParts], fun r => by
        simp +contextual [writtenRegs, namedDestinations, writesFlag, State.getV_setV_of_ne,
          State.getV_loadBlock_of_lt]⟩
    · exact frame_setRun (by simp [writtenParts]) s _
  all_goals
    cases h
    exact ⟨fun q => by cases q <;> simp [writtenParts, Keeps], by simp, fun r => by
      simp +contextual [writtenRegs, namedDestinations, writesFlag, State.getV_setV_of_ne,
        State.getV_setResultFlag_of_ne]⟩

/-- `execWith_frame` at the defaults of R7. -/
theorem exec_frame {i : Instr} {s t : State} (h : exec i s = .next t) : Frame i s t :=
  execWith_frame (p := Config.params) (by rwa [execWith_params])

/-- A part that executing an instruction changes is one that it may write. -/
theorem mem_writtenParts_of_exec {i : Instr} {s t : State} {q : Part} (h : exec i s = .next t) (hq : ¬ Keeps q s t) :
    q ∈ writtenParts i :=
  Decidable.not_not.1 fun hn => hq ((exec_frame h).parts q hn)

/-! ### What is left in the parts it may write -/

/-- All that an instruction can do to the return stack (R39, R152, R154). -/
theorem execWith_stack_cases {p : Config.Params} {i : Instr} {s t : State} (h : execWith p i s = .next t) :
    t.stack = s.stack ∨
    (∃ nnn, i = .call nnn ∧ p.stackLimit ≠ some s.stack.length ∧ t.stack = s.pc :: s.stack) ∨
    (i = .ret ∧ ∃ a, s.stack = a :: t.stack) := by
  cases i
  case ret =>
    rcases execRet_cases h with ⟨-, rfl⟩ | ⟨a, rest, hs, rfl⟩
    · exact .inl rfl
    · exact .inr (.inr ⟨rfl, a, hs⟩)
  case call nnn =>
    rcases execCallWith_cases h with ⟨-, rfl⟩ | ⟨hl, rfl⟩
    · exact .inl rfl
    · exact .inr (.inl ⟨nnn, rfl, hl, rfl⟩)
  all_goals exact .inl ((execWith_frame h).parts .stack (by simp [writtenParts]))

/-- All that an instruction can do to the screen (R40, R42): nothing, or the dirty flag is set and the framebuffer is
blank or the old one with some cells toggled. -/
theorem execWith_screen_cases {p : Config.Params} {i : Instr} {s t : State} (h : execWith p i s = .next t) :
    (t.fb = s.fb ∧ t.shouldRender = s.shouldRender) ∨
    (t.shouldRender = true ∧ (t.fb = [] ∨ ∃ cells, t.fb = (drawCells s.fb cells).1)) := by
  cases i
  case clear => cases h; exact .inr ⟨rfl, .inl rfl⟩
  case display x y n =>
    rcases withMemory_cases h with ⟨-, rfl⟩ | ⟨-, rfl⟩
    · exact .inr ⟨rfl, .inr ⟨s.spriteCells x y n, rfl⟩⟩
    · exact .inl ⟨rfl, rfl⟩
  all_goals
    have hk := (execWith_frame h).parts
    exact .inl ⟨hk .fb (by simp [writtenParts]), hk .shouldRender (by simp [writtenParts])⟩

/-- All that an instruction can do to memory (R73, R77): nothing, or `BCD` or `MemDump` stores its bytes from `I` on, all
of them inside memory. -/
theorem execWith_memory_cases {p : Config.Params} {i : Instr} {s t : State} (h : execWith p i s = .next t) :
    t.memory = s.memory ∨
    ((∃ x, i = .bcd x ∨ i = .memDump x) ∧ ∃ vs : List Byte, vs.length = dataBytes i ∧
      s.I.toNat + vs.length ≤ Config.memSize ∧ t.memory = s.memory.store s.I.toNat vs) := by
  cases i
  case bcd x =>
    rcases withMemory_cases h with ⟨hr, rfl⟩ | ⟨-, rfl⟩
    · refine .inr ⟨⟨x, .inl rfl⟩, bcdDigits (s.getV x), rfl, ?_, rfl⟩
      exact (inRange_iff.1 hr).resolve_left (by decide)
    · exact .inl rfl
  case memDump x =>
    rcases withMemory_cases h with ⟨hr, rfl⟩ | ⟨-, rfl⟩
    · refine .inr ⟨⟨x, .inr rfl⟩, s.block x, length_block s x, ?_, rfl⟩
      simpa [inRange_iff, length_block] using hr
    · exact .inl rfl
  all_goals exact .inl ((execWith_frame h).memory (by simp [writtenParts]))

/-- The target of `JumpV0` (R159) as one sum. -/
theorem zextAddr_add_zextByte (nnn : Addr) (b : Byte) :
    zextAddr nnn + zextByte b = BitVec.ofNat 16 (nnn.toNat + b.toNat) := by
  simp [zextAddr, zextByte, BitVec.ofNat_add]

/-- All that an instruction can do to `pc`: it raises, and then nothing but `run` is written (R363), or `pc` is the one of
R160's table. -/
theorem execWith_pc_cases {p : Config.Params} {i : Instr} {s t : State} (h : execWith p i s = .next t) :
    (∃ e, t = s.setRun (.failed e)) ∨ t.pc = pcAfter i s := by
  cases i
  case ret => rcases execRet_cases h with ⟨hs, rfl⟩ | ⟨a, rest, hs, rfl⟩ <;> exact .inr (by simp [pcAfter, hs])
  case sys nnn => cases h; exact .inl ⟨_, rfl⟩
  case call nnn =>
    rcases execCallWith_cases h with ⟨-, rfl⟩ | ⟨-, rfl⟩
    · exact .inl ⟨_, rfl⟩
    · exact .inr (by simp [pcAfter, zextAddr])
  case getKeyOp x =>
    rcases execGetKeyOp_cases h with ⟨k, hk, rfl⟩ | ⟨hk, rfl⟩ <;> exact .inr (by simp [pcAfter, hk])
  case bcd | memDump | memLoad | display =>
    rcases withMemory_cases h with ⟨-, rfl⟩ | ⟨-, rfl⟩
    · exact .inr rfl
    · exact .inl ⟨_, rfl⟩
  case jump nnn => cases h; exact .inr (by simp [pcAfter, zextAddr])
  case jumpV0 nnn => cases h; exact .inr (zextAddr_add_zextByte nnn (s.getV 0))
  case ifEq | ifNeq | ifEqReg | ifNeqReg | keyOpEq | keyOpNeq => cases h; exact .inr (skipIf_pc _ s)
  all_goals cases h; exact .inr (by simp [pcAfter])

end Sys2Proof.Machine
end

section
/-! The invariant of a run (spec/10_state.md R34; spec/40_control.md R152; assumption log 9): every step and every action of
the host keeps it, whatever the parameters, and with it the bound on the return stack. -/

namespace Sys2Proof.Machine

/-! ### The states it speaks of -/

/-- The invariant speaks of memory, framebuffer, `pc` and return stack alone. -/
theorem State.Inv.congr {s t : State} (hs : s.Inv) (hm : t.memory = s.memory) (hf : t.fb = s.fb) (hp : t.pc = s.pc)
    (hk : t.stack = s.stack) : t.Inv where
  memory := hm ▸ hs.memory
  fb := hf ▸ hs.fb
  pc := hp ▸ hs.pc
  stack := hk ▸ hs.stack

theorem State.Inv.setRun {s : State} (hs : s.Inv) (r : RunState) : (s.setRun r).Inv := hs.congr rfl rfl rfl rfl

theorem StackWithinLimit.congr {p : Config.Params} {s t : State} (hs : StackWithinLimit p s) (hk : t.stack = s.stack) :
    StackWithinLimit p t := fun l hl => hk ▸ hs l hl

theorem reset_inv : State.reset.Inv where
  memory := Memory.wf_nil
  fb := Framebuffer.wf_nil
  pc := by decide
  stack _ h := absurd h List.not_mem_nil

/-- A construction that answers is the reset state with the program stored, and the program fits (R400, decision D20). -/
theorem construct_cases {blob : List Byte} {s : State} (h : construct blob = some s) :
    Config.loadAddress + blob.length ≤ Config.memSize ∧
      s = State.reset.setMemory (State.reset.memory.store Config.loadAddress blob) := by
  unfold construct at h
  split at h
  · rename_i hb
    have hl : Config.loadAddress ≤ Config.memSize := by decide
    exact ⟨by omega, (Option.some.inj h).symm⟩
  · cases h

theorem construct_inv {blob : List Byte} {s : State} (h : construct blob = some s) : s.Inv := by
  obtain ⟨hb, rfl⟩ := construct_cases h
  exact { reset_inv with memory := Memory.wf_store reset_inv.memory hb }

theorem construct_stackWithinLimit (p : Config.Params) {blob : List Byte} {s : State} (h : construct blob = some s) :
    StackWithinLimit p s := by
  obtain ⟨-, rfl⟩ := construct_cases h
  exact fun l _ => Nat.zero_le l

/-! ### The bound on `pc` (R34) -/

/-- A fetch succeeds only at an address of at most 0xFFE (R74). -/
theorem pc_le_of_fetch {s : State} {w : Word} (h : s.fetch = some w) : s.pc.toNat ≤ 0xFFE := by
  have hlt := (fetch_some h).1
  rw [memSize_eq] at hlt
  omega

theorem pcSkip_le {s : State} (hpc : s.pc.toNat ≤ 0xFFE) (c : Bool) : (pcSkip c s).toNat ≤ 0x10FE := by
  cases c <;> simp only [pcSkip, if_true, Bool.false_eq_true, if_false] <;> bv_omega

/-- R34's derivation, over R160's table: after an instruction at an address that can be fetched, `pc` is at most
0xFFF + 0xFF, which only `JumpV0` reaches. -/
theorem pcAfter_le {s : State} (hpc : s.pc.toNat ≤ 0xFFE) (hk : ∀ a ∈ s.stack, a.toNat ≤ 0xFFE) (i : Instr) :
    (pcAfter i s).toNat ≤ 0x10FE := by
  cases i
  case ret =>
    cases hs : s.stack with
    | nil => simp only [pcAfter, hs]; omega
    | cons a rest =>
      have ha := hk a (by simp [hs])
      simp only [pcAfter, hs]
      bv_omega
  case jump nnn | call nnn =>
    have hn := nnn.isLt
    simp only [pcAfter, BitVec.toNat_ofNat]
    omega
  case jumpV0 nnn =>
    have hn := nnn.isLt
    have hv := (s.getV 0).isLt
    simp only [pcAfter, BitVec.toNat_ofNat]
    omega
  case ifEq | ifNeq | ifEqReg | ifNeqReg | keyOpEq | keyOpNeq => exact pcSkip_le hpc _
  case getKeyOp x => simp only [pcAfter]; split <;> bv_omega
  all_goals simp only [pcAfter]; bv_omega

/-! ### One step -/

theorem execWith_memory_wf {p : Config.Params} {i : Instr} {s t : State} (h : execWith p i s = .next t)
    (hs : s.memory.wf) : t.memory.wf := by
  rcases execWith_memory_cases h with hm | ⟨-, vs, -, hr, hm⟩
  · rwa [hm]
  · rw [hm]; exact Memory.wf_store hs hr

theorem execWith_fb_wf {p : Config.Params} {i : Instr} {s t : State} (h : execWith p i s = .next t)
    (hs : s.fb.wf) : t.fb.wf := by
  rcases execWith_screen_cases h with ⟨hf, -⟩ | ⟨-, hf | ⟨cells, hf⟩⟩
  · rwa [hf]
  · rw [hf]; exact Framebuffer.wf_nil
  · rw [hf]; exact Framebuffer.wf_drawCells hs cells

/-- A saved address is the `pc` of a `Call`, or was saved before. -/
theorem execWith_stack_le {p : Config.Params} {i : Instr} {s t : State} (h : execWith p i s = .next t)
    (hpc : s.pc.toNat ≤ 0xFFE) (hk : ∀ a ∈ s.stack, a.toNat ≤ 0xFFE) : ∀ a ∈ t.stack, a.toNat ≤ 0xFFE := by
  rcases execWith_stack_cases h with hst | ⟨-, -, -, hst⟩ | ⟨-, b, hst⟩
  · rwa [hst]
  · rw [hst]; exact List.forall_mem_cons.2 ⟨hpc, hk⟩
  · rw [hst] at hk; exact (List.forall_mem_cons.1 hk).2

/-- Executing an instruction from an address that can be fetched keeps the invariant. -/
theorem execWith_inv {p : Config.Params} {i : Instr} {s t : State} (h : execWith p i s = .next t) (hs : s.Inv)
    (hpc : s.pc.toNat ≤ 0xFFE) : t.Inv where
  memory := execWith_memory_wf h hs.memory
  fb := execWith_fb_wf h hs.fb
  pc := by
    rcases execWith_pc_cases h with ⟨e, rfl⟩ | hp
    · exact hs.pc
    · rw [hp]; exact pcAfter_le hpc hs.stack i
  stack := execWith_stack_le h hpc hs.stack

/-- A `Call` pushes only where the stack has not reached `STACK_LIMIT` (R39, R154). -/
theorem execWith_stackWithinLimit {p : Config.Params} {i : Instr} {s t : State} (h : execWith p i s = .next t)
    (hs : StackWithinLimit p s) : StackWithinLimit p t := by
  intro l hl
  have hsl := hs l hl
  rcases execWith_stack_cases h with hst | ⟨-, -, hne, hst⟩ | ⟨-, a, hst⟩
  · rwa [hst]
  · have hlt : s.stack.length < l := lt_of_le_of_ne hsl fun e => hne (e ▸ hl)
    rwa [hst, List.length_cons]
  · rw [hst, List.length_cons] at hsl
    omega

theorem stepWith_inv {p : Config.Params} {s t : State} (hs : s.Inv) (h : stepWith p s = .next t) : t.Inv := by
  obtain ⟨-, ⟨-, rfl⟩ | ⟨w, e, -, -, rfl⟩ | ⟨w, i, hf, -, hx⟩⟩ := stepCycle_cases h
  · exact hs.setRun _
  · exact hs.setRun _
  · exact execWith_inv hx hs (pc_le_of_fetch hf)

theorem stepWith_stackWithinLimit {p : Config.Params} {s t : State} (hs : StackWithinLimit p s)
    (h : stepWith p s = .next t) : StackWithinLimit p t := by
  obtain ⟨-, ⟨-, rfl⟩ | ⟨w, e, -, -, rfl⟩ | ⟨w, i, -, -, hx⟩⟩ := stepCycle_cases h
  · exact hs.congr rfl
  · exact hs.congr rfl
  · exact execWith_stackWithinLimit hx hs

/-- Settles O13: at the defaults of R7, the step that keeps the invariant under every parameter. -/
theorem stepKeepsTheInvariant : Obligations.StepKeepsTheInvariant := by
  intro s t hs h
  rw [← stepWith_params] at h
  exact stepWith_inv hs h

/-! ### Every run -/

/-- No action of the host but a step touches memory, framebuffer, `pc` or return stack (R369). -/
theorem actBy_frame {st : State → Host.Outcome State Fault Refusal} {a : HostAction} {s t : State} (ha : a ≠ .step)
    (h : actBy st a s = .next t) : t.memory = s.memory ∧ t.fb = s.fb ∧ t.pc = s.pc ∧ t.stack = s.stack := by
  cases a with
  | step => exact absurd rfl ha
  | decrementRegisters | keyDown k | keyUp k =>
    obtain ⟨-, hk⟩ := whileRunning_cases h
    cases hk
    exact ⟨rfl, rfl, rfl, rfl⟩
  | clearRender => cases h; exact ⟨rfl, rfl, rfl, rfl⟩

theorem actWith_inv {p : Config.Params} {a : HostAction} {s t : State} (hs : s.Inv) (h : actWith p a s = .next t) :
    t.Inv := by
  by_cases ha : a = .step
  · subst ha; exact stepWith_inv hs h
  · obtain ⟨hm, hf, hp, hk⟩ := actBy_frame ha h
    exact hs.congr hm hf hp hk

theorem actWith_stackWithinLimit {p : Config.Params} {a : HostAction} {s t : State} (hs : StackWithinLimit p s)
    (h : actWith p a s = .next t) : StackWithinLimit p t := by
  by_cases ha : a = .step
  · subst ha; exact stepWith_stackWithinLimit hs h
  · obtain ⟨-, -, -, hk⟩ := actBy_frame ha h
    exact hs.congr hk

/-- What a constructed machine satisfies and every action of the host keeps, every state of a run satisfies. -/
theorem reachesWith_keeps {p : Config.Params} {P : State → Prop}
    (hk : ∀ a s t, P s → actWith p a s = .next t → P t) {s t : State} (hs : P s) (h : ReachesWith p s t) : P t := by
  obtain ⟨as, h⟩ := h
  exact runActionsBy_keeps hk as s t hs h

/-- Settles O59, both bounds apart: each is kept by a step, holds at construction and is kept by every action. -/
theorem everyParameterKeepsTheInvariantAndTheStackLimit :
    Obligations.EveryParameterKeepsTheInvariantAndTheStackLimit := by
  refine ⟨fun p s t hs hl h => ⟨stepWith_inv hs h, stepWith_stackWithinLimit hl h⟩, fun p blob s t hc h => ⟨?_, ?_⟩⟩
  · exact reachesWith_keeps (fun _ _ _ => actWith_inv) (construct_inv hc) h
  · exact reachesWith_keeps (fun _ _ _ => actWith_stackWithinLimit) (construct_stackWithinLimit p hc) h

/-- A run at the defaults of R7 is a run under parameters. -/
theorem reachesWith_params {s t : State} : ReachesWith Config.params s t ↔ Reaches s t := by
  simp only [ReachesWith, Reaches, runActionsWith, runActions,
    show stepWith Config.params = step from funext stepWith_params]

/-- A `pc` above 0xFFE is not fetched (R74, decision D16). -/
theorem fetch_eq_none {s : State} (h : 0xFFE < s.pc.toNat) : s.fetch = none := by
  cases hf : s.fetch with
  | none => rfl
  | some w => exact absurd (pc_le_of_fetch hf) (by omega)

/-- Settles O16: the bound is the invariant's, along the run; the error is that of the failed fetch. -/
theorem everyRunKeepsPcAtMost10FE : Obligations.EveryRunKeepsPcAtMost10FE := by
  refine ⟨fun blob s t hc h => ?_, fun s hr hpc => stepCycle_unfetched hr (fetch_eq_none hpc)⟩
  have hinv : t.Inv := reachesWith_keeps (fun _ _ _ => actWith_inv) (construct_inv hc) (reachesWith_params.2 h)
  exact hinv.pc

end Sys2Proof.Machine
end

section
/-! The obligations of spec/10_state.md on canonical forms, on who writes what, and on what no step reads. -/

namespace Sys2Proof.Machine

/-! ### Canonical forms (assumption log 9) -/

theorem Memory.read_of_mem {m : Memory} (h : m.Pairwise (fun c d => c.1 < d.1)) {c : Host.Cell} (hc : c ∈ m) :
    m.read c.1 = c.2 := by
  induction m with
  | nil => exact absurd hc List.not_mem_nil
  | cons d m ih =>
    obtain ⟨hd, hm⟩ := List.pairwise_cons.1 h
    rw [Memory.read_cons]
    rcases List.mem_cons.1 hc with rfl | hc
    · exact if_pos rfl
    · rw [if_neg (hd c hc).ne]; exact ih hm hc

theorem Memory.read_of_forall_ne {m : Memory} {a : Nat} (h : ∀ c ∈ m, c.1 ≠ a) : m.read a = Memory.unlisted a := by
  induction m with
  | nil => rfl
  | cons d m ih =>
    obtain ⟨hd, hm⟩ := List.forall_mem_cons.1 h
    rw [Memory.read_cons, if_neg hd]
    exact ih hm

/-- The entries of a canonical memory are the bytes that read otherwise than unlisted. -/
theorem Memory.mem_iff_read {m : Memory} (h : m.wf) (c : Host.Cell) :
    c ∈ m ↔ m.read c.1 = c.2 ∧ c.2 ≠ Memory.unlisted c.1 := by
  refine ⟨fun hc => ⟨Memory.read_of_mem h.1 hc, (h.2 c hc).2⟩, fun ⟨hr, hu⟩ => ?_⟩
  by_contra hc
  refine hu (hr ▸ Memory.read_of_forall_ne fun d hd hdc => hc ?_)
  have hdv : d.2 = c.2 := by rw [← Memory.read_of_mem h.1 hd, hdc, hr]
  rwa [← Prod.ext hdc hdv]

/-- Settles O17: the reads determine the entries of a canonical list, and its order determines the list. -/
theorem canonicalFormsAreDeterminedByTheirReads : Obligations.CanonicalFormsAreDeterminedByTheirReads := by
  refine ⟨fun m m' hm hm' hr => ?_, fun f f' hf hf' hl => ?_⟩
  · have hirr : Std.Irrefl (fun c d : Host.Cell => c.1 < d.1) := ⟨fun _ => lt_irrefl _⟩
    have hanti : Std.Antisymm (fun c d : Host.Cell => c.1 < d.1) := ⟨fun _ _ h h' => absurd h' h.asymm⟩
    exact hm.1.eq_of_mem_iff hm'.1 fun c => by rw [Memory.mem_iff_read hm, Memory.mem_iff_read hm', hr]
  · exact hf.eq_of_mem_iff hf' fun c => by rw [← Framebuffer.lit_iff, ← Framebuffer.lit_iff, hl]

/-! ### Who writes what -/

/-- Settles O18, from the frame: `I` is among the written parts of three instructions. -/
theorem onlyIndexInstructionsWriteI : Obligations.OnlyIndexInstructionsWriteI := by
  intro i s t h hI
  have hw : .I ∈ writtenParts i := mem_writtenParts_of_exec h hI
  cases i <;> simp [writtenParts] at hw ⊢

/-- No step clears the dirty flag (R42). -/
theorem step_keeps_shouldRender {s t : State} (h : step s = .next t) (hs : s.shouldRender = true) :
    t.shouldRender = true := by
  rw [← stepWith_params] at h
  obtain ⟨-, ⟨-, rfl⟩ | ⟨w, e, -, -, rfl⟩ | ⟨w, i, -, -, hx⟩⟩ := stepCycle_cases h
  · exact hs
  · exact hs
  · rcases execWith_screen_cases hx with ⟨-, hr⟩ | ⟨hr, -⟩
    · rw [hr, hs]
    · exact hr

/-- Settles O19: the framebuffer and the dirty flag are among the written parts of two instructions, which set the flag. -/
theorem onlyClearAndDisplayWriteTheScreen : Obligations.OnlyClearAndDisplayWriteTheScreen := by
  refine ⟨fun i s t h hc => ?_, fun s t => step_keeps_shouldRender⟩
  have hw : .fb ∈ writtenParts i ∨ .shouldRender ∈ writtenParts i :=
    hc.imp (mem_writtenParts_of_exec h) (mem_writtenParts_of_exec h)
  cases i <;> simp [writtenParts] at hw ⊢

/-- Settles O20: what an instruction can do to the return stack, at the defaults of R7. -/
theorem onlyCallAndReturnChangeTheStack : Obligations.OnlyCallAndReturnChangeTheStack := by
  intro i s t h hne
  rw [← execWith_params] at h
  rcases execWith_stack_cases h with hst | ⟨nnn, hi, -, hst⟩ | ⟨hi, a, hst⟩
  · exact absurd hst hne
  · exact .inl ⟨⟨nnn, hi⟩, hst⟩
  · exact .inr ⟨hi, a, hst⟩

/-- The keypad is among the written parts of no instruction (R41). -/
theorem exec_keypad {i : Instr} {s t : State} (h : exec i s = .next t) : t.keypad = s.keypad :=
  (exec_frame h).parts .keypad (by cases i <;> simp [writtenParts])

/-- Settles O21, from the frame: each timer is among the written parts of one instruction, the keypad of none. -/
theorem timersAndKeypadAreWrittenOnlyAsStated : Obligations.TimersAndKeypadAreWrittenOnlyAsStated := by
  refine ⟨fun i s t h => ⟨fun hD => ?_, fun hS => ?_⟩, fun s t h => ?_⟩
  · have hw : .DT ∈ writtenParts i := mem_writtenParts_of_exec h hD
    cases i <;> simp [writtenParts] at hw ⊢
  · have hw : .ST ∈ writtenParts i := mem_writtenParts_of_exec h hS
    cases i <;> simp [writtenParts] at hw ⊢
  · obtain ⟨-, ⟨-, rfl⟩ | ⟨w, e, -, -, rfl⟩ | ⟨w, i, -, -, hx⟩⟩ := step_cases h
    · rfl
    · rfl
    · exact exec_keypad hx

/-- Settles O23, from the frame: a register outside the named destinations and the flag is kept. -/
theorem registersChangeOnlyWhereNamedOrFlag : Obligations.RegistersChangeOnlyWhereNamedOrFlag := by
  intro i s t r h hne
  have hw : r ∈ writtenRegs i := Decidable.not_not.1 fun hn => hne ((exec_frame h).regs r hn)
  rcases List.mem_append.1 hw with hd | hf
  · exact .inl hd
  · split at hf
    · exact .inr ⟨List.mem_singleton.1 hf, ‹_›⟩
    · exact absurd hf List.not_mem_nil

/-! ### What no step reads (R37, R42) -/

/-- Two states that differ at most in `ST` and the dirty flag. -/
def SameButSoundAndRender (s u : State) : Prop := (u.setST 0#8).setRender false = (s.setST 0#8).setRender false

/-- An access through `I` is checked alike, whatever `ST` and the dirty flag hold. -/
theorem withMemory_sameButSoundAndRender {n : Nat} {s t k k' : State} (b : Byte) (r : Bool)
    (h : withMemory n s k = .next t) (hk : SameButSoundAndRender k k') :
    ∃ u, withMemory n ((s.setST b).setRender r) k' = .next u ∧ SameButSoundAndRender t u := by
  rcases withMemory_cases h with ⟨hr, rfl⟩ | ⟨hr, rfl⟩
  · exact ⟨k', withMemory_inRange (s := (s.setST b).setRender r) hr k', hk⟩
  · exact ⟨_, withMemory_outside (s := (s.setST b).setRender r) hr k', rfl⟩

theorem skipIf_sameButSoundAndRender (c : Bool) (s : State) (b : Byte) (r : Bool) :
    SameButSoundAndRender (s.skipIf c) (((s.setST b).setRender r).skipIf c) := by
  cases c <;> rfl

/-- Executing an instruction does not depend on `ST` or on the dirty flag; a byte drawn is the same in both runs, as the
counter `draws` is (assumption log 1). -/
theorem exec_sameButSoundAndRender {i : Instr} {s t : State} (b : Byte) (r : Bool) (h : exec i s = .next t) :
    ∃ u, exec i ((s.setST b).setRender r) = .next u ∧ SameButSoundAndRender t u := by
  cases i
  case ret =>
    rcases execRet_cases h with ⟨hs, rfl⟩ | ⟨a, rest, hs, rfl⟩
    · exact ⟨_, execRet_nil (s := (s.setST b).setRender r) hs, rfl⟩
    · exact ⟨_, execRet_cons (s := (s.setST b).setRender r) hs, rfl⟩
  case getKeyOp x =>
    rcases execGetKeyOp_cases h with ⟨k, hk, rfl⟩ | ⟨hk, ht⟩
    · exact ⟨_, execGetKeyOp_some (s := (s.setST b).setRender r) hk x, rfl⟩
    · rw [ht]; exact ⟨_, execGetKeyOp_none (s := (s.setST b).setRender r) hk x, rfl⟩
  case ifEq | ifNeq | ifEqReg | ifNeqReg | keyOpEq | keyOpNeq =>
    cases h; exact ⟨_, rfl, skipIf_sameButSoundAndRender _ s b r⟩
  case bcd | memDump | memLoad | display => exact withMemory_sameButSoundAndRender b r h rfl
  all_goals cases h; exact ⟨_, rfl, rfl⟩

/-- Settles O25: the fetch and the decoder do not read them either. -/
theorem soundTimerAndRenderFlagAreNeverRead : Obligations.SoundTimerAndRenderFlagAreNeverRead := by
  intro s t b r h
  obtain ⟨hr, ⟨hf, rfl⟩ | ⟨w, e, hf, hd, rfl⟩ | ⟨w, i, hf, hd, hx⟩⟩ := step_cases h
  · exact ⟨_, stepCycle_unfetched (s := (s.setST b).setRender r) hr hf, rfl⟩
  · exact ⟨_, stepCycle_undecoded (s := (s.setST b).setRender r) hr hf hd, rfl⟩
  · obtain ⟨u, hu, heq⟩ := exec_sameButSoundAndRender b r hx
    exact ⟨u, (stepCycle_decoded (s := (s.setST b).setRender r) hr hf hd).trans hu, heq⟩

end Sys2Proof.Machine
end

section
/-! The decoder and the encoder against each other (spec/30_encoding.md R100, R105, R107): the word of a well-formed
instruction decodes to it, and the decoder's answer about a word is about that word. -/

namespace Sys2Proof

/-! ### What is encoded decodes -/

/-- `Sys` comes last in family 0: its word is neither of the two others exactly where it is well formed (R109). -/
theorem decode_word_sys {nnn : Addr} (h : (Instr.sys nnn).wf = true) :
    decode (Instr.sys nnn).word = .ok (.sys nnn) := by
  simp only [Instr.wf, Bool.and_eq_true, bne_iff_ne] at h
  have hclear : formA 0#4 nnn ≠ 0x00E0#16 := fun e => h.1 (by rw [← fieldNNN_formA 0#4 nnn, e]; rfl)
  have hret : formA 0#4 nnn ≠ 0x00EE#16 := fun e => h.2 (by rw [← fieldNNN_formA 0#4 nnn, e]; rfl)
  simp [Instr.word, decode, decodeFamily0, hclear, hret]

/-- The decoder reads back the fields that the encoder places (R105, R107). -/
theorem decode_word {i : Instr} (h : i.wf = true) : decode i.word = .ok i := by
  cases i
  case clear | ret => rfl
  case sys nnn => exact decode_word_sys h
  case ifEqReg | ifNeqReg => simp [Instr.word, decode, decodeFamily5, decodeFamily9]
  case loadReg | or | and | xor | addReg | sub | rightShift | subSelf | leftShift =>
    simp [Instr.word, decode, decodeFamily8]
  case keyOpEq | keyOpNeq => simp [Instr.word, decode, decodeFamilyE]
  case getDelay | getKeyOp | setDelay | setSound | addI | loadFont | bcd | memDump | memLoad =>
    simp [Instr.word, decode, decodeFamilyF]
  all_goals simp [Instr.word, decode]

/-! ### What is decoded was encoded -/

section
variable {w : Word} {f : BitVec 4}

theorem formA_fieldNNN (hf : (fieldF w).toNat = f.toNat) : formA f (fieldNNN w) = w := by
  rw [← BitVec.eq_of_toNat_eq hf, formA_fields]

theorem formXK_fieldX {kk : Byte} (hf : (fieldF w).toNat = f.toNat) (hk : (fieldKK w).toNat = kk.toNat) :
    formXK f (fieldX w) kk = w := by
  rw [← BitVec.eq_of_toNat_eq hf, ← BitVec.eq_of_toNat_eq hk, formXK_fields]

theorem formXY_fieldX_fieldY {n : Nibble} (hf : (fieldF w).toNat = f.toNat) (hn : (fieldN w).val = n.val) :
    formXY f (fieldX w) (fieldY w) n = w := by
  rw [← BitVec.eq_of_toNat_eq hf, ← Fin.ext hn, formXY_fields]

end

/-- What a decoder's answer may say about `w`: an instruction that is encoded as `w`, or that `w` itself is unknown. -/
def AnswersAbout (w : Word) : Except UnknownOpcode Instr → Prop
  | .ok i => encode i = some w
  | .error e => e.word = w

theorem decodeFamily0_answersAbout {w : Word} (hf : (fieldF w).toNat = 0) : AnswersAbout w (decodeFamily0 w) := by
  unfold decodeFamily0
  split
  · exact congrArg some (Eq.symm ‹_›)
  · split
    · exact congrArg some (Eq.symm ‹_›)
    · have hw : formA 0#4 (fieldNNN w) = w := formA_fieldNNN hf
      have hclear : fieldNNN w ≠ 0x0E0#12 := fun e => absurd (e ▸ hw).symm ‹_›
      have hret : fieldNNN w ≠ 0x0EE#12 := fun e => absurd (e ▸ hw).symm ‹_›
      simp [AnswersAbout, encode, Instr.wf, Instr.word, hclear, hret, hw]

theorem decodeFamily5_answersAbout {w : Word} (hf : (fieldF w).toNat = 5) : AnswersAbout w (decodeFamily5 w) := by
  unfold decodeFamily5
  split
  · exact congrArg some (formXY_fieldX_fieldY hf (congrArg Fin.val ‹_›))
  · rfl

theorem decodeFamily8_answersAbout {w : Word} (hf : (fieldF w).toNat = 8) : AnswersAbout w (decodeFamily8 w) := by
  unfold decodeFamily8
  split
  case h_10 => rfl
  all_goals exact congrArg some (formXY_fieldX_fieldY hf ‹_›)

theorem decodeFamily9_answersAbout {w : Word} (hf : (fieldF w).toNat = 9) : AnswersAbout w (decodeFamily9 w) := by
  unfold decodeFamily9
  split
  · exact congrArg some (formXY_fieldX_fieldY hf (congrArg Fin.val ‹_›))
  · rfl

theorem decodeFamilyE_answersAbout {w : Word} (hf : (fieldF w).toNat = 0xE) : AnswersAbout w (decodeFamilyE w) := by
  unfold decodeFamilyE
  split
  case h_3 => rfl
  all_goals exact congrArg some (formXK_fieldX hf ‹_›)

theorem decodeFamilyF_answersAbout {w : Word} (hf : (fieldF w).toNat = 0xF) : AnswersAbout w (decodeFamilyF w) := by
  unfold decodeFamilyF
  split
  case h_10 => rfl
  all_goals exact congrArg some (formXK_fieldX hf ‹_›)

/-- By the top nibble, one case per arm of `decode`: the families that select further, then the four formats. -/
theorem decode_answersAbout (w : Word) : AnswersAbout w (decode w) := by
  unfold decode
  split
  case h_1 hf => exact decodeFamily0_answersAbout hf
  case h_6 hf => exact decodeFamily5_answersAbout hf
  case h_9 hf => exact decodeFamily8_answersAbout hf
  case h_10 hf => exact decodeFamily9_answersAbout hf
  case h_15 hf => exact decodeFamilyE_answersAbout hf
  case h_16 hf => exact decodeFamilyF_answersAbout hf
  case h_17 => rfl
  case h_14 hf => exact congrArg some (formXY_fieldX_fieldY hf rfl)
  case h_2 hf | h_3 hf | h_11 hf | h_12 hf => exact congrArg some (formA_fieldNNN hf)
  all_goals exact congrArg some (formXK_fieldX ‹_› rfl)

/-- The decoder answers no ill-formed instruction, and none of another word (R105, R109). -/
theorem encode_of_decode {w : Word} {i : Instr} (h : decode w = .ok i) : encode i = some w := by
  have ha := decode_answersAbout w
  rwa [h] at ha

theorem word_of_encode {w : Word} {i : Instr} (h : encode i = some w) : i.word = w := by
  unfold encode at h
  split at h
  · exact Option.some.inj h
  · cases h

/-- `UnknownOpcode` carries the word that does not decode (R105). -/
theorem word_of_decode_error {w : Word} {e : UnknownOpcode} (h : decode w = .error e) : e.word = w := by
  have ha := decode_answersAbout w
  rwa [h] at ha

/-! ### The two bytes of an instruction (R75, R100) -/

theorem decodeBytes_cons_cons {hi lo : Byte} {i : Instr} (h : decode (wordOfBytes hi lo) = .ok i) (rest : List Byte) :
    decodeBytes (hi :: lo :: rest) = .ok (i, rest) := by
  simp only [decodeBytes, h]

theorem decodeBytes_bytes_append {i : Instr} (h : i.wf = true) (rest : List Byte) :
    decodeBytes (i.bytes ++ rest) = .ok (i, rest) :=
  decodeBytes_cons_cons (by rw [wordOfBytes_bytes, decode_word h]) rest

theorem map_toNat_bytes (i : Instr) : i.bytes.map BitVec.toNat = [i.word.toNat / 256, i.word.toNat % 256] := by
  simp only [Instr.bytes, List.map_cons, List.map_nil, toNat_highByte, toNat_lowByte]

theorem decodeBytes_of_length_lt_two {bs : List Byte} (h : bs.length < 2) : decodeBytes bs = .error .truncated := by
  match bs with
  | [] | [_] => rfl
  | _ :: _ :: _ => simp at h

end Sys2Proof
end

section
/-! The obligations of spec/20_memory.md: byte order and fetch (R74, R75), the bytes an access writes (R73, R77), the
coherence of stores with the fetch (R81). -/

namespace Sys2Proof.Machine

/-! ### Fetch (R74) -/

/-- The word fetched is the number its two bytes make, the byte at the lower address the more significant. -/
theorem fetch_eq_some {s : State} {w : Word} (hpc : s.pc.toNat + 1 < 4096)
    (hw : w.toNat = (s.memory.read s.pc.toNat).toNat * 256 + (s.memory.read (s.pc.toNat + 1)).toNat) :
    s.fetch = some w := by
  rw [State.fetch, Memory.fetch, memSize_eq, if_pos hpc]
  exact congrArg some (BitVec.eq_of_toNat_eq (by rw [toNat_wordOfBytes, hw]))

/-! ### Stores (R73, R77) -/

/-- A byte that a store changes is one of those stored. -/
theorem Memory.mem_range_of_read_store_ne {m : Memory} {a b : Nat} {vs : List Byte}
    (h : (m.store a vs).read b ≠ m.read b) : a ≤ b ∧ b < a + vs.length := by
  by_contra hn
  exact h (Memory.read_store_outside m a b vs (by omega))

/-- The `k`-th byte of a stored register block reads as `V[k]` (R254). -/
theorem read_store_block {x k : Reg} (h : k ≤ x) (m : Memory) (a : Nat) (s : State) :
    (m.store a (s.block x)).read (a + k.val) = s.getV k := by
  have hk : k.val ≤ x.val := h
  rw [Memory.read_store, length_block, if_pos (by omega), Nat.add_sub_cancel_left, getD_block s x k h]

/-- `MemDump` inside memory is its effect (R254). -/
theorem exec_memDump {x : Reg} {s : State} (h : s.I.toNat + x.val < 4096) :
    exec (.memDump x) s = .next (s.setMemory (s.memory.store s.I.toNat (s.block x))).advance :=
  withMemory_inRange (inRange_iff.2 (.inr (by rw [memSize_eq]; omega))) _

/-! ### The obligations -/

/-- Settles O6: the bytes make the word again, which decodes; fewer than two bytes are none. -/
theorem instructionBytesDecodeFromAStream : Obligations.InstructionBytesDecodeFromAStream :=
  ⟨fun _ rest h => decodeBytes_bytes_append h rest, map_toNat_bytes, fun _ => decodeBytes_of_length_lt_two⟩

/-- Settles O7: the three ways of the step cycle; the word that an error carries is the one fetched, since the decoder's
answer is about that word. -/
theorem stepRunsTheDecodedInstruction : Obligations.StepRunsTheDecodedInstruction := by
  intro s hr
  refine ⟨fun hpc => stepCycle_unfetched hr (fetch_eq_none (by omega)), fun w hpc hw => ?_⟩
  have hf : s.fetch = some w := fetch_eq_some hpc hw
  refine ⟨hf, fun e hd => ?_, fun i hd => stepCycle_decoded hr hf hd, fun nnn hd => ?_⟩
  · rw [← word_of_decode_error hd]
    exact stepCycle_undecoded hr hf hd
  · rw [← word_of_encode (encode_of_decode hd)]
    exact stepCycle_decoded hr hf hd

/-- Settles O22: all that an instruction can do to memory is a store of its bytes from `I` on, inside memory. -/
theorem onlyBcdAndMemDumpWriteMemory : Obligations.OnlyBcdAndMemDumpWriteMemory := by
  intro i s t a h hne
  rw [← execWith_params] at h
  rcases execWith_memory_cases h with hm | ⟨hi, vs, hlen, hle, hm⟩
  · exact absurd (congrArg (Memory.read · a) hm) hne
  · rw [hm] at hne
    obtain ⟨hge, hlt⟩ := Memory.mem_range_of_read_store_ne hne
    rw [memSize_eq] at hle
    exact ⟨hi, hge, hlen ▸ hlt, by omega⟩

/-- Settles O46: after the store `pc` is `I`, where the block's first two bytes now lie. -/
theorem storeIsSeenByTheNextFetch : Obligations.StoreIsSeenByTheNextFetch := by
  intro x s t hx hpc hI hin h
  rw [exec_memDump hin] at h
  cases h
  have hpcI : (s.pc + 2#16).toNat = s.I.toNat := by bv_omega
  have h0 := read_store_block (Fin.zero_le x) s.memory s.I.toNat s
  have h1 := read_store_block (k := 1) (x := x) hx s.memory s.I.toNat s
  refine ⟨wordOfBytes (s.getV 0) (s.getV 1), fetch_eq_some ?_ ?_, toNat_wordOfBytes _ _⟩
  · rw [State.advance_pc, State.setMemory_pc, hpcI]; omega
  · rw [State.advance_pc, State.setMemory_pc, State.advance_memory, State.setMemory_memory, hpcI, toNat_wordOfBytes,
      ← h0, ← h1]
    rfl

end Sys2Proof.Machine
end

section
/-! The opcode table of spec/30_encoding.md R104 over all instructions. -/

namespace Sys2Proof.Laws.MatchesRow

/-- Each instruction's word has the bits that its row fixes. -/
theorem word_and_mask : ∀ i : Instr, Statement i
  | .clear => clear | .ret => ret | .sys a => sys a | .jump a => jump a | .call a => call a
  | .ifEq x kk => ifEq x kk | .ifNeq x kk => ifNeq x kk | .ifEqReg x y => ifEqReg x y
  | .loadImm x kk => loadImm x kk | .add x kk => add x kk
  | .loadReg x y => loadReg x y | .or x y => or x y | .and x y => and x y | .xor x y => xor x y
  | .addReg x y => addReg x y | .sub x y => sub x y | .rightShift x y => rightShift x y
  | .subSelf x y => subSelf x y | .leftShift x y => leftShift x y | .ifNeqReg x y => ifNeqReg x y
  | .loadI a => loadI a | .jumpV0 a => jumpV0 a | .random x kk => random x kk | .display x y n => display x y n
  | .keyOpEq x => keyOpEq x | .keyOpNeq x => keyOpNeq x
  | .getDelay x => getDelay x | .getKeyOp x => getKeyOp x | .setDelay x => setDelay x | .setSound x => setSound x
  | .addI x => addI x | .loadFont x => loadFont x | .bcd x => bcd x | .memDump x => memDump x
  | .memLoad x => memLoad x

end Sys2Proof.Laws.MatchesRow
end

section
/-! The obligations of spec/30_encoding.md: the encoder's refusals (R107, R109), the round trip (R110), the illegal words
(R105, R106, R111), the opcode table (R104). -/

namespace Sys2Proof

/-! ### What the encoder refuses (R109) -/

theorem wf_eq_false_iff (i : Instr) : i.wf = false ↔ i = .sys 0x0E0#12 ∨ i = .sys 0x0EE#12 := by
  cases i
  case sys nnn => simp only [Instr.wf, Bool.and_eq_false_iff, bne_eq_false_iff_eq, Instr.sys.injEq]
  all_goals simp [Instr.wf]

theorem encode_of_wf {i : Instr} (h : i.wf = true) : encode i = some i.word := if_pos h

theorem encode_eq_none_iff (i : Instr) : encode i = none ↔ i.wf = false := by
  cases h : i.wf <;> simp [encode, h]

/-- One word alone decodes to an instruction: the instruction's own. -/
theorem word_of_decode {w : Word} {i : Instr} (h : decode w = .ok i) : i.word = w :=
  word_of_encode (encode_of_decode h)

/-! ### The unassigned selectors (R105, R106), family by family -/

theorem decodeFamily0_ne_error (w : Word) (e : UnknownOpcode) : decodeFamily0 w ≠ .error e := by
  unfold decodeFamily0
  split
  · nofun
  · split <;> nofun

theorem fieldN_ne_zero_iff (w : Word) : fieldN w ≠ 0 ↔ w.toNat % 16 ≠ 0 := by
  rw [← val_fieldN, ne_eq, ne_eq, Fin.val_eq_zero_iff]

theorem decodeFamily5_error_iff (w : Word) : (∃ e, decodeFamily5 w = .error e) ↔ w.toNat % 16 ≠ 0 := by
  rw [← fieldN_ne_zero_iff]
  unfold decodeFamily5
  split <;> simp [*]

theorem decodeFamily8_error_iff (w : Word) :
    (∃ e, decodeFamily8 w = .error e) ↔ w.toNat % 16 ∈ [0x8, 0x9, 0xA, 0xB, 0xC, 0xD, 0xF] := by
  rw [← val_fieldN]
  unfold decodeFamily8
  split
  case h_10 =>
    have := (fieldN w).isLt
    simp only [imp_false, Except.error.injEq, exists_eq', true_iff, List.mem_cons, List.not_mem_nil, or_false] at *
    omega
  all_goals simp [*]

theorem decodeFamily9_error_iff (w : Word) : (∃ e, decodeFamily9 w = .error e) ↔ w.toNat % 16 ≠ 0 := by
  rw [← fieldN_ne_zero_iff]
  unfold decodeFamily9
  split <;> simp [*]

theorem decodeFamilyE_error_iff (w : Word) :
    (∃ e, decodeFamilyE w = .error e) ↔ w.toNat % 256 ∉ [0x9E, 0xA1] := by
  rw [← toNat_fieldKK]
  unfold decodeFamilyE
  split
  case h_3 => simp_all
  all_goals simp [*]

theorem decodeFamilyF_error_iff (w : Word) : (∃ e, decodeFamilyF w = .error e) ↔
    w.toNat % 256 ∉ [0x07, 0x0A, 0x15, 0x18, 0x1E, 0x29, 0x33, 0x55, 0x65] := by
  rw [← toNat_fieldKK]
  unfold decodeFamilyF
  split
  case h_10 => simp_all
  all_goals simp [*]

/-! ### The obligations -/

/-- Settles O1: the decoder reads back what the encoder places, and answers about its own word alone. -/
theorem encodeThenDecodeRoundTrip : Obligations.EncodeThenDecodeRoundTrip :=
  ⟨fun i h => ⟨i.word, encode_of_wf h, decode_word h⟩, fun _ _ => encode_of_decode,
    fun _ _ _ h h' => (word_of_decode h).symm.trans (word_of_decode h')⟩

/-- Settles O3: by the top nibble, one case per arm of `decode`; five families have unassigned selectors, the last arm is
reached by no word. The decoder's answer is about its word. -/
theorem illegalWordsAreTheUnassignedSelectors : Obligations.IllegalWordsAreTheUnassignedSelectors := by
  intro w
  refine ⟨?_, fun _ => word_of_decode_error⟩
  rw [← toNat_fieldF]
  unfold decode
  split
  case h_1 hf => simp [hf, decodeFamily0_ne_error]
  case h_6 hf => simp [hf, decodeFamily5_error_iff]
  case h_9 hf => simp [hf, decodeFamily8_error_iff]
  case h_10 hf => simp [hf, decodeFamily9_error_iff]
  case h_15 hf => simp [hf, decodeFamilyE_error_iff]
  case h_16 hf => simp [hf, decodeFamilyF_error_iff]
  case h_17 =>
    have := (fieldF w).isLt
    simp only [imp_false] at *
    omega
  all_goals simp [*]

/-- Settles O4: a decoded word is the instruction's own, which has the bits of the row. -/
theorem decodedWordMatchesItsTableRow : Obligations.DecodedWordMatchesItsTableRow := by
  intro w i h
  rw [← word_of_decode h]
  exact Laws.MatchesRow.word_and_mask i

/-- Settles O2: the check of well-formedness is the one way to refuse. -/
theorem encodeRefusesExactlyTheIllFormedSys : Obligations.EncodeRefusesExactlyTheIllFormedSys :=
  ⟨wf_eq_false_iff, encode_eq_none_iff, fun _ => rfl, fun _ => rfl⟩

/-- Settles O5: the decoder evaluates on each word. -/
theorem specWordsDecodeAsWritten : Obligations.SpecWordsDecodeAsWritten := by
  unfold Obligations.SpecWordsDecodeAsWritten
  decide

end Sys2Proof
end

section
/-! Rules that the result statements share: the word of an instruction as a number (spec/30_encoding.md R107), and the
effect and frame of a written `pc`, of a skip and of a written return stack (spec/40_control.md). -/

namespace Sys2Proof.Machine

/-! ### The word of an instruction (R107) -/

/-- A well-formed instruction is encoded as its word, which decodes to it. -/
theorem encodesAs_of_wf {i : Instr} {n : Nat} (h : i.wf = true) (hn : i.word.toNat = n) : EncodesAs i n :=
  ⟨i.word, encode_of_wf h, hn, decode_word h⟩

/-- The word of family 0 is its address zero-extended. -/
theorem formA_zero (nnn : Addr) : formA 0#4 nnn = BitVec.ofNat 16 nnn.toNat := by
  apply BitVec.eq_of_toNat_eq
  have := nnn.isLt
  rw [toNat_formA, BitVec.toNat_ofNat, BitVec.toNat_ofNat]
  omega

/-! ### Effects and frames -/

theorem setsOnlyPc_setPc (w : Word) (s : State) : SetsOnlyPc w s (s.setPc w) :=
  ⟨rfl, fun _ _ => rfl, fun q _ => by cases q <;> simp [Keeps]⟩

/-- A skip skips where its computed condition is the one stated (R155). -/
theorem skipsWhen_skipIf {c : Bool} {P : Prop} (hc : c = true ↔ P) (s : State) : SkipsWhen P s (s.skipIf c) :=
  ⟨fun h => by rw [skipIf_pc, if_pos (hc.2 h)], fun h => by rw [skipIf_pc, if_neg (mt hc.1 h)],
    fun _ _ => s.skipIf_getV c _, fun q _ => by cases q <;> simp [Keeps]⟩

/-- `Call` and a `Return` that pops write the return stack and `pc` alone. -/
theorem keepsAllBut_setStack_setPc (l : List Word) (w : Word) (s : State) :
    KeepsAllBut [.stack] s ((s.setStack l).setPc w) := fun q => by cases q <;> simp [Keeps]

/-- A call that finds room pushes its own address and jumps (R154). -/
theorem execCallWith_of_ne {p : Config.Params} {s : State} (h : p.stackLimit ≠ some s.stack.length) (nnn : Addr) :
    execCallWith p nnn s = .next ((s.setStack (s.pc :: s.stack)).setPc (zextAddr nnn)) := if_neg h

/-- A call that finds the stack at its limit raises (R154). -/
theorem execCallWith_of_eq {p : Config.Params} {s : State} (h : p.stackLimit = some s.stack.length) (nnn : Addr) :
    execCallWith p nnn s = .next (s.setRun (.failed (.stackOverflow s.pc))) := if_pos h

/-- Without a limit, the default, a call always finds room (decision D18). -/
theorem exec_call (nnn : Addr) (s : State) :
    exec (.call nnn) s = .next ((s.setStack (s.pc :: s.stack)).setPc (zextAddr nnn)) :=
  have hroom : Config.params.stackLimit ≠ some s.stack.length := nofun
  execCallWith_of_ne hroom nnn

/-- No key is the lowest exactly where none is down (R320). -/
theorem lowestKey_eq_none_iff {k : Vector Bool 16} : lowestKey k = none ↔ ∀ j : Key, k[j] = false := by
  simp [lowestKey]

end Sys2Proof.Machine
end

section
/-! The obligations of spec/40_control.md: the `pc` after every instruction (R160), jumps and calls (R153, R154, R159), the
return (R152), the skips (R155–R158), `Sys` (R151), and the two hangs (R153, R323). -/

namespace Sys2Proof.Machine

/-! ### The effect on `pc` (R160) -/

/-- Settles O24: an instruction raises, which the hypothesis on `run` excludes, or leaves the `pc` of R160's table. -/
theorem pcEffectOfEveryInstruction : Obligations.PcEffectOfEveryInstruction := by
  intro i s t h hsafe
  rw [← execWith_params] at h
  rcases execWith_pc_cases h with ⟨e, rfl⟩ | hpc
  · exact absurd rfl (hsafe e)
  · exact hpc

/-! ### Return (R152) -/

/-- A saved address is at most 0xFFE in a run, so resuming past it does not wrap. -/
theorem toNat_saved_add_two {s : State} {saved : Word} (hs : s.Inv) (hm : saved ∈ s.stack) :
    (saved + 2#16).toNat = saved.toNat + 2 ∧ (saved + 2#16).toNat ≤ 0x1000 := by
  have hle := hs.stack saved hm
  constructor <;> bv_omega

/-- Settles O35: the two cases of the stack; the invariant bounds the saved address. -/
theorem returnPopsOrHalts : Obligations.ReturnPopsOrHalts := by
  refine ⟨encodesAs_of_wf rfl rfl, fun s => ⟨execRet_nil, fun saved rest hs => ?_⟩⟩
  refine ⟨_, execRet_cons hs, rfl, rfl, fun hinv => ?_, fun _ _ => rfl, keepsAllBut_setStack_setPc _ _ s⟩
  exact toNat_saved_add_two hinv (hs ▸ List.mem_cons_self)

/-- Settles O36: the entry that the call pushed is the one that the return pops. -/
theorem callThenReturnResumesAfterTheCall : Obligations.CallThenReturnResumesAfterTheCall := by
  intro nnn s t u h hu
  rw [exec_call] at h
  cases h
  exact ⟨_, execRet_cons hu, rfl, rfl⟩

/-! ### Hangs (R153, R323) -/

/-- A machine whose step answers the same state stays there. -/
theorem run_of_step_eq_self {M : Host.Core} {s : M.State} (h : M.step s = .next s) (k : Nat) :
    M.run k s = .next s := by
  induction k with
  | zero => rfl
  | succ k ih => simp only [Host.Core.run, h, ih]

/-- A jump to its own address leaves the state as it is (R153). -/
theorem exec_jump_self {nnn : Addr} {s : State} (h : nnn.toNat = s.pc.toNat) : exec (.jump nnn) s = .next s := by
  have hpc : zextAddr nnn = s.pc := BitVec.eq_of_toNat_eq ((toNat_zextAddr nnn).trans h)
  exact congrArg (fun a => Host.Outcome.next (s.setPc a)) hpc

/-- Settles O39: each of the two instructions answers the state it is given, so the step does. -/
theorem selfJumpAndKeyWaitHang : Obligations.SelfJumpAndKeyWaitHang := by
  rintro k s w hr hf (⟨nnn, hd, hpc⟩ | ⟨x, hd, hkeys⟩)
  · exact run_of_step_eq_self (M := core) ((stepCycle_decoded hr hf hd).trans (exec_jump_self hpc)) k
  · have hnone : lowestKey s.keypad = none := lowestKey_eq_none_iff.2 hkeys
    exact run_of_step_eq_self (M := core) ((stepCycle_decoded hr hf hd).trans (execGetKeyOp_none hnone x)) k

/-! ### Jumps and calls (R153, R154, R159) -/

/-- The target of `JumpV0` is at most 0xFFF + 0xFF, so the sum of 16 bits does not wrap (decision D35). -/
theorem toNat_jumpV0_target (nnn : Addr) (b : Byte) :
    (zextAddr nnn + zextByte b).toNat = nnn.toNat + b.toNat ∧ (zextAddr nnn + zextByte b).toNat ≤ 0x10FE := by
  have hn := nnn.isLt
  have hb := b.isLt
  rw [BitVec.toNat_add, toNat_zextAddr, toNat_zextByte]
  omega

/-- Settles O33: each jump writes its target to `pc` and nothing else. -/
theorem jumpsGoToTheirTarget : Obligations.JumpsGoToTheirTarget := by
  intro nnn s
  refine ⟨encodesAs_of_wf rfl (toNat_formA _ _), encodesAs_of_wf rfl (toNat_formA _ _), ?_, ?_⟩
  · exact ⟨_, rfl, toNat_zextAddr nnn, setsOnlyPc_setPc _ s⟩
  · obtain ⟨hsum, hle⟩ := toNat_jumpV0_target nnn (s.getV 0)
    exact ⟨_, rfl, hsum, hle, setsOnlyPc_setPc _ s⟩

/-- Settles O34: the two ways of a call, at the limit and below it; the default has no limit. -/
theorem callSavesItsOwnAddress : Obligations.CallSavesItsOwnAddress := by
  intro nnn s
  refine ⟨encodesAs_of_wf rfl (toNat_formA _ _), ?_, fun p l hl hlen => ?_, fun p hne => ?_⟩
  · exact ⟨_, exec_call nnn s, rfl, toNat_zextAddr nnn, fun _ _ => rfl, keepsAllBut_setStack_setPc _ _ s⟩
  · exact execCallWith_of_eq (hlen ▸ hl) nnn
  · rw [exec_call, execCallWith_of_ne hne]

/-! ### Skips (R155–R158) -/

theorem beq_iff_toNat_eq {a b : Byte} : (a == b) = true ↔ a.toNat = b.toNat :=
  beq_iff_eq.trans BitVec.toNat_inj.symm

theorem bne_iff_toNat_ne {a b : Byte} : (a != b) = true ↔ a.toNat ≠ b.toNat :=
  bne_iff_ne.trans BitVec.toNat_ne_iff_ne.symm

/-- Settles O37: each is the skip of R155 under its comparison of bytes. -/
theorem skipsStepOverTheNextInstruction : Obligations.SkipsStepOverTheNextInstruction := by
  intro x y kk s
  refine ⟨encodesAs_of_wf rfl (toNat_formXK _ _ _), encodesAs_of_wf rfl (toNat_formXK _ _ _),
    encodesAs_of_wf rfl (toNat_formXY _ _ _ _), encodesAs_of_wf rfl (toNat_formXY _ _ _ _), ?_, ?_, ?_, ?_⟩
  · exact ⟨_, rfl, skipsWhen_skipIf beq_iff_toNat_eq s⟩
  · exact ⟨_, rfl, skipsWhen_skipIf bne_iff_toNat_ne s⟩
  · exact ⟨_, rfl, skipsWhen_skipIf beq_iff_toNat_eq s⟩
  · exact ⟨_, rfl, skipsWhen_skipIf bne_iff_toNat_ne s⟩

/-! ### Sys (R151) -/

/-- Settles O38: the word is the address zero-extended, and the effect is the error (R363). -/
theorem sysAlwaysRaisesUnimplemented : Obligations.SysAlwaysRaisesUnimplemented := by
  intro nnn s
  refine ⟨fun hclear hret => ?_, ?_⟩
  · have hwf : (Instr.sys nnn).wf = true := by simp [Instr.wf, hclear, hret]
    exact encodesAs_of_wf hwf ((toNat_formA _ _).trans (Nat.zero_add _))
  · rw [← formA_zero]
    rfl

end Sys2Proof.Machine
end

section
/-! The register results of spec/41_alu.md as numbers (R200–R212): the words of family 8, the bytes that the arithmetic
instructions compute and their flags (R207–R211), and the effect and frame of a written register and of a result written
with its flag in either order (R206). -/

namespace Sys2Proof.Machine

/-- The word of a register instruction of family 8 (R104). -/
theorem toNat_formXY_eight (x y : Reg) (n : Nibble) :
    (formXY 8#4 x y n).toNat = 0x8000 + n.val + x.val * 256 + y.val * 16 := by
  have h8 : (8#4).toNat = 8 := rfl
  rw [toNat_formXY, h8]
  omega

/-! ### Results (R207–R211) -/

section
variable (a b : Byte)

theorem toNat_sub_byte : (a - b).toNat = (a.toNat + 256 - b.toNat) % 256 := by
  rw [BitVec.toNat_sub]
  omega

theorem toNat_ushiftRight_one : (a >>> 1).toNat = a.toNat / 2 := by
  rw [BitVec.toNat_ushiftRight, Nat.shiftRight_eq_div_pow, Nat.pow_one]

theorem toNat_shiftLeft_one : (a <<< 1).toNat = a.toNat * 2 % 256 := by
  rw [BitVec.toNat_shiftLeft, Nat.shiftLeft_eq, Nat.pow_one]

/-! ### Flags (R207–R211) -/

theorem toNat_flagByte (c : Bool) : (flagByte c).toNat = if c = true then 1 else 0 := by cases c <;> rfl

theorem toNat_carryFlag : (carryFlag a b).toNat = if a.toNat + b.toNat > 255 then 1 else 0 := by
  simp only [carryFlag, toNat_flagByte, decide_eq_true_eq]

theorem toNat_borrowFlag : (borrowFlag a b).toNat = if b.toNat > a.toNat then 1 else 0 := by
  simp only [borrowFlag, toNat_flagByte, decide_eq_true_eq, gt_iff_lt, BitVec.lt_def]

theorem toNat_shiftedOutLow : (shiftedOutLow a).toNat = a.toNat % 2 :=
  (BitVec.toNat_and a _).trans (Nat.and_one_is_mod _)

/-- The bit that a left shift pushes out, under `SHL_VF_NORMALISE` or in its place (R211): a byte has no bit above 7. -/
theorem toNat_shiftedOutHigh (normalise : Bool) :
    (shiftedOutHigh normalise a).toNat = if normalise = true then a.toNat / 128 else a.toNat / 128 * 128 := by
  have htop : a.toNat / 2 ^ 7 % 2 = a.toNat / 128 := by omega
  cases normalise with
  | false =>
    calc (a &&& 0x80#8).toNat = a.toNat &&& 2 ^ 7 := BitVec.toNat_and _ _
      _ = a.toNat / 2 ^ 7 % 2 * 2 ^ 7 := by rw [Nat.and_two_pow, Nat.toNat_testBit]
      _ = a.toNat / 128 * 128 := congrArg (· * 128) htop
  | true =>
    calc (a >>> 7 &&& 1#8).toNat = a.toNat >>> 7 &&& 1 := BitVec.toNat_and _ _
      _ = a.toNat / 2 ^ 7 % 2 := by rw [Nat.and_one_is_mod, Nat.shiftRight_eq_div_pow]
      _ = a.toNat / 128 := htop

end

/-! ### Effects and frames -/

theorem setsOnlyReg_setV_advance {b : Byte} {v : Nat} (hv : b.toNat = v) (x : Reg) (s : State) :
    SetsOnlyReg x v s (s.setV x b).advance :=
  ⟨by simp [hv], rfl, fun r hr => State.getV_setV_of_ne (by simpa using hr) s b,
    fun q _ => by cases q <;> simp [Keeps]⟩

/-- A destination other than `VF` and the flag are both written, in either order (R206). -/
theorem getV_setResultFlag_of_ne_VF {x : Reg} (hx : x ≠ VF) (s : State) (o : Config.VfWriteOrder) (r f : Byte) :
    (s.setResultFlag o x r f).getV x = r ∧ (s.setResultFlag o x r f).getV VF = f := by
  simp [getV_setResultFlag, hx]

/-- What R206 says of a result `v` and a flag written in the order `o`: where `x = F` the second write stays. -/
def WritesInOrder (o : Config.VfWriteOrder) (x : Reg) (v flag : Nat) (s t : State) : Prop :=
  (x ≠ VF → (t.getV x).toNat = v ∧ (t.getV VF).toNat = flag) ∧
  (x = VF → o = .flagLast → (t.getV VF).toNat = flag) ∧
  (x = VF → o = .resultLast → (t.getV VF).toNat = v) ∧
  t.pc = s.pc + 2#16 ∧ KeepsRegsBut [x, VF] s t ∧ KeepsAllBut [] s t

theorem writesInOrder_setResultFlag {r f : Byte} {v flag : Nat} (hr : r.toNat = v) (hf : f.toNat = flag)
    (o : Config.VfWriteOrder) (x : Reg) (s : State) :
    WritesInOrder o x v flag s (s.setResultFlag o x r f).advance := by
  refine ⟨fun hx => ?_, ?_, ?_, ?_, fun q hq => ?_, fun q _ => by cases q <;> simp [Keeps]⟩
  · obtain ⟨hres, hflag⟩ := getV_setResultFlag_of_ne_VF hx s o r f
    exact ⟨(congrArg _ hres).trans hr, (congrArg _ hflag).trans hf⟩
  · rintro rfl rfl
    simp [getV_setResultFlag, hf]
  · rintro rfl rfl
    simp [getV_setResultFlag, hr]
  · simp
  · obtain ⟨hx, hv⟩ : q ≠ x ∧ q ≠ VF := by simpa using hq
    exact State.getV_setResultFlag_of_ne hx hv s o r f

/-- The default order of R206 leaves the flag in `VF`, also where `x = F` (decision D8). -/
theorem WritesInOrder.setsRegAndFlag {x : Reg} {v flag : Nat} {s t : State}
    (h : WritesInOrder .flagLast x v flag s t) : SetsRegAndFlag x v flag s t := by
  obtain ⟨hne, hflag, -, hframe⟩ := h
  refine ⟨fun hx => (hne hx).1, ?_, hframe⟩
  by_cases hx : x = VF
  · exact hflag hx rfl
  · exact (hne hx).2

theorem setsRegAndFlag_setResultFlag {r f : Byte} {v flag : Nat} (hr : r.toNat = v) (hf : f.toNat = flag)
    (x : Reg) (s : State) : SetsRegAndFlag x v flag s (s.setResultFlag .flagLast x r f).advance :=
  (writesInOrder_setResultFlag hr hf .flagLast x s).setsRegAndFlag

end Sys2Proof.Machine
end

section
/-! The obligations of spec/41_alu.md: loads and bitwise operations (R200, R202–R205), the immediate sum (R201), the
instructions that write a flag (R206–R211) and `Random` (R212). -/

namespace Sys2Proof.Machine

/-! ### The instructions that write a flag (R206–R211) -/

/-- Settles O28: the sum of bytes wraps, and its carry is the flag. -/
theorem addRegisterSetsCarry : Obligations.AddRegisterSetsCarry := fun x y s =>
  ⟨encodesAs_of_wf rfl (toNat_formXY_eight x y 4), _, rfl,
    setsRegAndFlag_setResultFlag (BitVec.toNat_add _ _) (toNat_carryFlag _ _) x s⟩

/-- Settles O29: the two subtractions are one difference and one borrow, with their operands exchanged. -/
theorem subtractionsSetBorrow : Obligations.SubtractionsSetBorrow := by
  intro x y s
  refine ⟨encodesAs_of_wf rfl (toNat_formXY_eight x y 5), encodesAs_of_wf rfl (toNat_formXY_eight x y 7), ?_, ?_⟩
  · exact ⟨_, rfl, setsRegAndFlag_setResultFlag (toNat_sub_byte _ _) (toNat_borrowFlag _ _) x s⟩
  · exact ⟨_, rfl, setsRegAndFlag_setResultFlag (toNat_sub_byte _ _) (toNat_borrowFlag _ _) x s⟩

/-- Settles O30: at the default the bit that a left shift pushes out stays in its place, 0x80 (decision D7). -/
theorem shiftsCaptureTheShiftedOutBit : Obligations.ShiftsCaptureTheShiftedOutBit := by
  intro x y s
  have htop : (shiftedOutHigh false (s.getV x)).toNat = if (s.getV x).toNat ≥ 128 then 128 else 0 := by
    rw [toNat_shiftedOutHigh, if_neg Bool.false_ne_true]
    split <;> omega
  refine ⟨encodesAs_of_wf rfl (toNat_formXY_eight x y 6), encodesAs_of_wf rfl (toNat_formXY_eight x y 14), ?_, ?_⟩
  · exact ⟨_, rfl, setsRegAndFlag_setResultFlag (toNat_ushiftRight_one _) (toNat_shiftedOutLow _) x s⟩
  · exact ⟨_, rfl, setsRegAndFlag_setResultFlag (toNat_shiftLeft_one _) htop x s⟩

/-- Settles O31: each of the five writes its result and its flag, computed beforehand, in the order of the parameter. -/
theorem writeOrderDecidesOnlyDestinationVF : Obligations.WriteOrderDecidesOnlyDestinationVF := by
  intro p x y s
  simp only [List.forall_mem_cons]
  refine ⟨?_, ?_, ?_, ?_, ?_, nofun⟩
  · exact ⟨_, rfl, writesInOrder_setResultFlag (BitVec.toNat_add _ _) (toNat_carryFlag _ _) _ x s⟩
  · exact ⟨_, rfl, writesInOrder_setResultFlag (toNat_sub_byte _ _) (toNat_borrowFlag _ _) _ x s⟩
  · exact ⟨_, rfl, writesInOrder_setResultFlag (toNat_sub_byte _ _) (toNat_borrowFlag _ _) _ x s⟩
  · exact ⟨_, rfl, writesInOrder_setResultFlag (toNat_ushiftRight_one _) (toNat_shiftedOutLow _) _ x s⟩
  · exact ⟨_, rfl, writesInOrder_setResultFlag (toNat_shiftLeft_one _) (toNat_shiftedOutHigh _ _) _ x s⟩

/-! ### One register (R200–R205, R212) -/

/-- Settles O26: each writes one byte to its destination, the bitwise ones bit by bit. -/
theorem loadsAndBitwiseResults : Obligations.LoadsAndBitwiseResults := by
  intro x y kk s
  refine ⟨encodesAs_of_wf rfl (toNat_formXK _ x kk), encodesAs_of_wf rfl (toNat_formXY_eight x y 0),
    encodesAs_of_wf rfl (toNat_formXY_eight x y 1), encodesAs_of_wf rfl (toNat_formXY_eight x y 2),
    encodesAs_of_wf rfl (toNat_formXY_eight x y 3), ?_, ?_, ?_, ?_, ?_⟩
  · exact ⟨_, rfl, setsOnlyReg_setV_advance rfl x s⟩
  · exact ⟨_, rfl, setsOnlyReg_setV_advance rfl x s⟩
  · exact ⟨_, rfl, setsOnlyReg_setV_advance (BitVec.toNat_or _ _) x s⟩
  · exact ⟨_, rfl, setsOnlyReg_setV_advance (BitVec.toNat_and _ _) x s⟩
  · exact ⟨_, rfl, setsOnlyReg_setV_advance (BitVec.toNat_xor _ _) x s⟩

/-- Settles O27: the sum of bytes wraps and goes to the destination alone. -/
theorem addImmediateWrapsWithoutFlag : Obligations.AddImmediateWrapsWithoutFlag := fun x kk s =>
  ⟨encodesAs_of_wf rfl (toNat_formXK _ x kk), _, rfl, setsOnlyReg_setV_advance (BitVec.toNat_add _ _) x s⟩

/-- Settles O32: the drawn byte is masked whatever it is, and the frame is the instruction's own. -/
theorem randomMasksAFreeByte : Obligations.RandomMasksAFreeByte := by
  intro x kk s
  obtain ⟨hparts, -, hregs⟩ := exec_frame (i := .random x kk) (s := s) rfl
  exact ⟨encodesAs_of_wf rfl (toNat_formXK _ x kk), _, rfl, s.getV_setV_same x _, rfl, rfl, hregs, hparts⟩

end Sys2Proof.Machine
end

section
/-! The index register and the data accesses of spec/42_memory_index.md: the words of family F (R104), the effect and frame
of a written `I`, the two ways of an access through `I` (R73), the stored digits (R253), and the load of a register
block (R255). -/

namespace Sys2Proof.Machine

/-- The word of an instruction of family F (R104). -/
theorem toNat_formXK_fifteen (x : Reg) (kk : Byte) : (formXK 0xF#4 x kk).toNat = 0xF000 + kk.toNat + x.val * 256 := by
  have hF : (0xF#4).toNat = 15 := rfl
  rw [toNat_formXK, hF]
  omega

/-! ### The index register (R250–R252) -/

theorem setsOnlyI_setI_advance {w : Word} {v : Nat} (hw : w.toNat = v) (s : State) :
    SetsOnlyI v s (s.setI w).advance :=
  ⟨hw, rfl, fun _ _ => rfl, fun q => by cases q <;> simp [Keeps]⟩

/-- The sum of `I` and a byte is one of 16 bits (decision D14). -/
theorem toNat_add_zextByte (w : Word) (b : Byte) : (w + zextByte b).toNat = (w.toNat + b.toNat) % 65536 := by
  rw [BitVec.toNat_add, toNat_zextByte]

/-- A glyph's address fits 16 bits; above 15 the address is the free value (decision D12). -/
theorem toNat_glyphAddress (d : Byte) :
    (glyphAddress d).toNat = if d.toNat ≤ 0xF then 5 * d.toNat else (Config.fontAddrHigh d).toNat := by
  have hdigit : d ≤ 0xF#8 ↔ d.toNat ≤ 0xF := BitVec.le_def
  have hfits : 5 * d.toNat < 2 ^ 16 := by have := d.isLt; omega
  rw [glyphAddress, apply_ite BitVec.toNat, BitVec.toNat_ofNat, Nat.mod_eq_of_lt hfits]
  simp only [hdigit]

/-! ### The two ways of an access through `I` (R73) -/

/-- `withMemory_inRange` with its premise as a bound on addresses. -/
theorem withMemory_of_le {count : Nat} {s : State} (h : s.I.toNat + count ≤ 4096) (k : State) :
    withMemory count s k = .next k :=
  withMemory_inRange (inRange_iff.2 (.inr h)) k

/-- `withMemory_outside` for an access whose last byte, at `I + n`, is outside memory. -/
theorem withMemory_succ_of_le {n : Nat} {s : State} (h : 4096 ≤ s.I.toNat + n) (k : State) :
    withMemory (n + 1) s k = .next (s.setRun (.failed (.memoryOutOfBounds (max s.I.toNat 4096)))) :=
  withMemory_outside (inRange_eq_false.2 ⟨n.succ_pos, Nat.lt_succ_of_le h⟩) k

/-! ### Stores (R253, R254) -/

theorem keepsAllBut_setMemory_advance (m : Memory) (s : State) :
    KeepsAllBut [.memory] s (s.setMemory m).advance := fun q => by cases q <;> simp [Keeps]

/-- The `k`-th byte stored from `a` on reads back at `a + k`. -/
theorem Memory.read_store_add {k : Nat} {vs : List Byte} (h : k < vs.length) (m : Memory) (a : Nat) :
    (m.store a vs).read (a + k) = vs[k] := by
  rw [Memory.read_store, if_pos (by omega), Nat.add_sub_cancel_left, List.getD_eq_getElem _ _ h]

/-- The decimal digits stored from `a` on, as numbers (R253). -/
theorem toNat_read_store_bcdDigits (m : Memory) (a : Nat) (v : Byte) :
    ((m.store a (bcdDigits v)).read a).toNat = v.toNat / 100 ∧
    ((m.store a (bcdDigits v)).read (a + 1)).toNat = v.toNat / 10 % 10 ∧
    ((m.store a (bcdDigits v)).read (a + 2)).toNat = v.toNat % 10 := by
  have hv := v.isLt
  have hread (k : Nat) (hk : k < 3) := congrArg BitVec.toNat (Memory.read_store_add (vs := bcdDigits v) hk m a)
  have hbyte {n : Nat} (hn : n < 256) : (BitVec.ofNat 8 n).toNat = n := Nat.mod_eq_of_lt hn
  exact ⟨(hread 0 (by omega)).trans (hbyte (by omega)), (hread 1 (by omega)).trans (hbyte (by omega)),
    (hread 2 (by omega)).trans (hbyte (by omega))⟩

/-! ### Loads (R255) -/

/-- `MemLoad` inside memory is its effect (R255). -/
theorem exec_memLoad {x : Reg} {s : State} (h : s.I.toNat + x.val < 4096) :
    exec (.memLoad x) s = .next (s.loadBlock x).advance :=
  withMemory_of_le h _

theorem keepsAllBut_loadBlock_advance (x : Reg) (s : State) : KeepsAllBut [] s (s.loadBlock x).advance :=
  fun q _ => by cases q <;> simp [Keeps]

end Sys2Proof.Machine
end

section
/-! The obligations of spec/42_memory_index.md: the writes of `I` (R250–R252), and the decimal digits and the register block
stored and loaded through it (R253–R255). -/

namespace Sys2Proof.Machine

/-! ### Accesses through `I` (R253–R255) -/

/-- Settles O42: inside memory the three digits are stored in a row, which changes no byte outside them; otherwise the
last address is outside. -/
theorem bcdStoresDecimalDigits : Obligations.BcdStoresDecimalDigits := by
  intro x s
  refine ⟨encodesAs_of_wf rfl (toNat_formXK_fifteen x 0x33#8), fun hin => ?_, fun hout => withMemory_succ_of_le hout _⟩
  obtain ⟨hundreds, tens, units⟩ := toNat_read_store_bcdDigits s.memory s.I.toNat (s.getV x)
  exact ⟨_, withMemory_of_le hin _, hundreds, tens, units, fun a ha => Memory.read_store_outside _ _ a _ ha, rfl,
    fun _ _ => rfl, keepsAllBut_setMemory_advance _ s⟩

/-- Settles O43: inside memory the block is stored in a row, which changes no byte outside it; otherwise the last address
is outside. -/
theorem memDumpStoresTheRegisterBlock : Obligations.MemDumpStoresTheRegisterBlock := by
  intro x s
  refine ⟨encodesAs_of_wf rfl (toNat_formXK_fifteen x 0x55#8), fun hin => ?_, fun hout => withMemory_succ_of_le hout _⟩
  refine ⟨_, exec_memDump hin, fun k hk => read_store_block hk s.memory s.I.toNat s, fun a ha => ?_, rfl,
    fun _ _ => rfl, keepsAllBut_setMemory_advance _ s⟩
  exact Memory.read_store_outside _ _ a _ (by rw [length_block]; omega)

/-- Settles O44: inside memory the registers up to `x` are loaded and the others kept; otherwise the last address is
outside. -/
theorem memLoadLoadsTheRegisterBlock : Obligations.MemLoadLoadsTheRegisterBlock := by
  intro x s
  refine ⟨encodesAs_of_wf rfl (toNat_formXK_fifteen x 0x65#8), fun hin => ?_, fun hout => withMemory_succ_of_le hout _⟩
  refine ⟨_, exec_memLoad hin, fun k hk => ?_, fun k hk => ?_, rfl, keepsAllBut_loadBlock_advance x s⟩
  · rw [State.advance_getV]
    exact (s.getV_loadBlock x k).trans (if_pos hk)
  · rw [State.advance_getV]
    exact State.getV_loadBlock_of_lt hk s

/-- Settles O45: each register is loaded from the byte that the dump stored it in. -/
theorem dumpThenLoadRestoresTheBlock : Obligations.DumpThenLoadRestoresTheBlock := by
  intro x s t u hin h hI hmem
  obtain ⟨-, hdump, -⟩ := memDumpStoresTheRegisterBlock x s
  obtain ⟨-, hload, -⟩ := memLoadLoadsTheRegisterBlock x u
  obtain ⟨t', ht', hstored, -, -, -, hkeeps⟩ := hdump hin
  obtain rfl : t = t' := Host.Outcome.next.inj (h.symm.trans ht')
  have hIs : u.I = s.I := hI.trans (hkeeps .I (by decide))
  obtain ⟨v, hv, hloaded, -⟩ := hload (hIs ▸ hin)
  refine ⟨v, hv, fun k hk => ?_⟩
  calc v.getV k = u.memory.read (u.I.toNat + k.val) := hloaded k hk
    _ = t.memory.read (s.I.toNat + k.val) := by rw [hmem, hIs]
    _ = s.getV k := hstored k hk

/-! ### Writes of `I` (R250–R252) -/

/-- Settles O40: the address is zero-extended, the sum wraps, and `I` alone is written. -/
theorem loadIAndAddIResults : Obligations.LoadIAndAddIResults := by
  intro nnn x s
  refine ⟨encodesAs_of_wf rfl (toNat_formA _ _), encodesAs_of_wf rfl (toNat_formXK_fifteen x 0x1E#8), ?_, ?_⟩
  · exact ⟨_, rfl, setsOnlyI_setI_advance (toNat_zextAddr nnn) s⟩
  · exact ⟨_, rfl, setsOnlyI_setI_advance (toNat_add_zextByte _ _) s⟩

/-- Settles O41: the glyph's address goes to `I` alone, whatever the free value is. -/
theorem loadFontResults : Obligations.LoadFontResults := fun x s =>
  ⟨encodesAs_of_wf rfl (toNat_formXK_fifteen x 0x29#8), _, rfl, setsOnlyI_setI_advance (toNat_glyphAddress _) s⟩

end Sys2Proof.Machine
end

section
/-! Drawing (spec/43_display.md R291): the cells a sprite covers are distinct and are its 1 bits on the screen, so that
inverting them one by one inverts each of its pixels once, and a collision is a cell lit beforehand. -/

namespace Sys2Proof.Machine

/-! ### The cells of a sprite -/

theorem mem_spriteRow {b : Byte} {x0 py : Nat} {c : PixelIndex} :
    c ∈ spriteRow b x0 py ↔ ∃ col < 8, b.getLsbD (7 - col) = true ∧ pixelIndex (x0 + col) py = c := by
  simp [spriteRow, and_assoc]

/-- No row covers a cell twice: its 8 columns stay distinct modulo 64. -/
theorem nodup_spriteRow (b : Byte) (x0 py : Nat) : (spriteRow b x0 py).Nodup := by
  refine (List.nodup_range.filter _).map_on fun c hc d hd h => ?_
  have hc8 := List.mem_range.1 (List.mem_of_mem_filter hc)
  have hd8 := List.mem_range.1 (List.mem_of_mem_filter hd)
  have := (Framebuffer.pixelIndex_eq_iff.1 h).1
  omega

theorem mem_spriteCells {m : Memory} {a x0 y0 n : Nat} {c : PixelIndex} :
    c ∈ spriteCells m a x0 y0 n ↔ ∃ row < n, c ∈ spriteRow (m.read (a + row)) x0 (y0 + row) := by
  simp [spriteCells]

/-- A sprite of at most 32 rows covers no cell twice: its rows stay distinct modulo 32. -/
theorem nodup_spriteCells (m : Memory) (a x0 y0 : Nat) {n : Nat} (hn : n ≤ 32) :
    (spriteCells m a x0 y0 n).Nodup := by
  refine List.nodup_flatMap.2 ⟨fun row _ => nodup_spriteRow _ _ _, ?_⟩
  refine List.nodup_range.pairwise_of_forall_ne fun r hr q hq hne => ?_
  rw [List.mem_range] at hr hq
  intro c hcr hcq
  obtain ⟨_, -, -, rfl⟩ := mem_spriteRow.1 hcr
  obtain ⟨_, -, -, h⟩ := mem_spriteRow.1 hcq
  have := (Framebuffer.pixelIndex_eq_iff.1 h).2
  omega

/-- The cells that `Display` inverts are the pixels of its sprite. -/
theorem pixelIndex_mem_spriteCells {x y : Reg} {n : Nibble} {s : State} {px py : Nat} (hx : px < 64) (hy : py < 32) :
    pixelIndex px py ∈ s.spriteCells x y n ↔ SpriteBit x y n s px py := by
  simp only [State.spriteCells, State.base, mem_spriteCells, mem_spriteRow, Framebuffer.pixelIndex_eq_iff,
    Nat.mod_eq_of_lt hx, Nat.mod_eq_of_lt hy, SpriteBit]
  constructor
  · rintro ⟨row, hrow, col, hcol, hbit, hpx, hpy⟩
    exact ⟨row, col, hrow, hcol, hbit, hpx.symm, hpy.symm⟩
  · rintro ⟨row, col, hrow, hcol, hbit, hpx, hpy⟩
    exact ⟨row, hrow, col, hcol, hbit, hpx.symm, hpy.symm⟩

/-! ### Inverting cells one by one -/

theorem lit_foldl_drawCell {cells : List PixelIndex} (h : cells.Nodup) (p : Framebuffer × Bool) (c : PixelIndex) :
    (cells.foldl drawCell p).1.lit c = if c ∈ cells then !p.1.lit c else p.1.lit c := by
  induction cells generalizing p with
  | nil => rfl
  | cons d cells ih =>
    obtain ⟨hd, hcells⟩ := List.nodup_cons.1 h
    rw [List.foldl_cons, ih hcells, Framebuffer.drawCell_fst, Framebuffer.lit_toggle]
    by_cases hdc : d = c
    · subst hdc
      simp [hd]
    · simp [hdc, Ne.symm hdc]

/-- A cell is looked at once, before it is inverted, so what counts is whether it was lit at first. -/
theorem foldl_drawCell_snd {cells : List PixelIndex} (h : cells.Nodup) (p : Framebuffer × Bool) :
    (cells.foldl drawCell p).2 = true ↔ p.2 = true ∨ ∃ c ∈ cells, p.1.lit c = true := by
  induction cells generalizing p with
  | nil => simp
  | cons d cells ih =>
    obtain ⟨hd, hcells⟩ := List.nodup_cons.1 h
    have hother : ∀ c ∈ cells, (p.1.toggle d).lit c = p.1.lit c := fun c hc => by
      rw [Framebuffer.lit_toggle, if_neg (ne_of_mem_of_not_mem hc hd).symm]
    have hlit : (∃ c ∈ cells, (p.1.toggle d).lit c = true) ↔ ∃ c ∈ cells, p.1.lit c = true :=
      exists_congr fun c => and_congr_right fun hc => by rw [hother c hc]
    rw [List.foldl_cons, ih hcells, Framebuffer.drawCell_fst, Framebuffer.drawCell_snd, hlit]
    simp [or_assoc]

theorem lit_drawCells {cells : List PixelIndex} (h : cells.Nodup) (f : Framebuffer) (c : PixelIndex) :
    (drawCells f cells).1.lit c = if c ∈ cells then !f.lit c else f.lit c :=
  lit_foldl_drawCell h (f, false) c

theorem drawCells_snd {cells : List PixelIndex} (h : cells.Nodup) (f : Framebuffer) :
    (drawCells f cells).2 = true ↔ ∃ c ∈ cells, f.lit c = true := by
  simp [drawCells, foldl_drawCell_snd h]

/-! ### The effect of `Display` -/

section
variable (s : State) (x y : Reg) (n : Nibble)

theorem State.nodup_spriteCells : (s.spriteCells x y n).Nodup :=
  Machine.nodup_spriteCells _ _ _ _ (by omega)

theorem drawCells_spriteCells_snd : (drawCells s.fb (s.spriteCells x y n)).2 = true ↔ Collides x y n s := by
  rw [drawCells_snd (s.nodup_spriteCells x y n)]
  constructor
  · rintro ⟨c, hc, hlit⟩
    obtain ⟨px, py, hx, hy, rfl⟩ := Framebuffer.pixelIndex_surj c
    exact ⟨px, py, hx, hy, (pixelIndex_mem_spriteCells hx hy).1 hc, hlit⟩
  · rintro ⟨px, py, hx, hy, hbit, hlit⟩
    exact ⟨_, (pixelIndex_mem_spriteCells hx hy).2 hbit, hlit⟩

/-- The state after the sprite is drawn; `clear` is `DRW_VF_CLEAR`. -/
def State.drawSprite (clear : Bool) : State :=
  ((s.setFb (drawCells s.fb (s.spriteCells x y n)).1).setV VF
    (collisionFlag clear (drawCells s.fb (s.spriteCells x y n)).2 (s.getV VF))).advance

theorem getV_VF_drawSprite (clear : Bool) : (s.drawSprite x y n clear).getV VF =
    collisionFlag clear (drawCells s.fb (s.spriteCells x y n)).2 (s.getV VF) :=
  State.getV_setV_same _ VF _

theorem pixel_drawSprite (clear : Bool) (px py : Nat) : (s.drawSprite x y n clear).pixel px py =
    if pixelIndex px py ∈ s.spriteCells x y n then !s.pixel px py else s.pixel px py :=
  lit_drawCells (s.nodup_spriteCells x y n) s.fb (pixelIndex px py)

theorem drawsSprite_drawSprite (clear : Bool) : DrawsSprite clear x y n s (s.drawSprite x y n clear) := by
  refine ⟨fun px py hx hy => ?_, fun h => ?_, fun h => ?_, rfl, rfl, fun r hr => ?_, fun q => ?_⟩
  · rw [pixel_drawSprite, ← pixelIndex_mem_spriteCells hx hy]
    by_cases hc : pixelIndex px py ∈ s.spriteCells x y n <;> simp [hc]
  · rw [getV_VF_drawSprite, (drawCells_spriteCells_snd s x y n).2 h]
    rfl
  · rw [getV_VF_drawSprite, Bool.eq_false_iff.2 (mt (drawCells_spriteCells_snd s x y n).1 h)]
    rfl
  · exact State.getV_setV_of_ne (by simpa using hr) _ _
  · cases q <;> simp [Keeps, State.drawSprite]

variable {x y n s}

theorem execDisplayWith_inside (h : n.val = 0 ∨ s.I.toNat + n.val ≤ 4096) (p : Config.Params) :
    execDisplayWith p x y n s = .next (s.drawSprite x y n p.drwVfClear) :=
  withMemory_inRange (inRange_iff.2 h) _

/-- `execDisplayWith_inside` at the default `DRW_VF_CLEAR` (decision D9). -/
theorem exec_display_inside (h : n.val = 0 ∨ s.I.toNat + n.val ≤ 4096) :
    exec (.display x y n) s = .next (s.drawSprite x y n true) :=
  execDisplayWith_inside h Config.params

theorem execDisplayWith_outside (h0 : 0 < n.val) (h : 4096 < s.I.toNat + n.val) (p : Config.Params) :
    execDisplayWith p x y n s = .next (s.setRun (.failed (.memoryOutOfBounds (max s.I.toNat 4096)))) :=
  withMemory_outside (inRange_eq_false.2 ⟨h0, h⟩) _

/-! ### What follows from the effect -/

variable {clear clear' : Bool} {t u : State} {px py : Nat}

theorem DrawsSprite.pixel_of_spriteBit (h : DrawsSprite clear x y n s t) (hx : px < 64) (hy : py < 32)
    (hbit : SpriteBit x y n s px py) : t.pixel px py = !s.pixel px py := by
  obtain ⟨hpixel, -⟩ := h
  rw [Bool.eq_iff_iff, hpixel px py hx hy]
  simp [hbit]

theorem DrawsSprite.pixel_of_not_spriteBit (h : DrawsSprite clear x y n s t) (hx : px < 64) (hy : py < 32)
    (hbit : ¬ SpriteBit x y n s px py) : t.pixel px py = s.pixel px py := by
  obtain ⟨hpixel, -⟩ := h
  rw [Bool.eq_iff_iff, hpixel px py hx hy]
  simp [hbit]

/-- Under `DRW_VF_CLEAR` the flag is the collision (decision D9). -/
theorem DrawsSprite.getV_VF_eq_one_iff (h : DrawsSprite true x y n s t) : t.getV VF = 1#8 ↔ Collides x y n s := by
  obtain ⟨-, hone, hzero, -⟩ := h
  refine ⟨fun hv => by_contra fun hn => ?_, hone⟩
  have hv0 : t.getV VF = 0#8 := hzero hn
  exact absurd (hv0.symm.trans hv) (by decide)

/-- Drawing moves no sprite whose coordinates are not in `VF`. -/
theorem DrawsSprite.spriteBit_iff (h : DrawsSprite clear x y n s t) (hx : x ≠ VF) (hy : y ≠ VF) :
    SpriteBit x y n t px py ↔ SpriteBit x y n s px py := by
  obtain ⟨-, -, -, -, -, hregs, hparts⟩ := h
  have hI : t.I = s.I := hparts .I (by decide)
  have hread : ∀ a, t.memory.read a = s.memory.read a := hparts .memory (by decide)
  simp only [SpriteBit, hI, hread, hregs x (by simpa using hx), hregs y (by simpa using hy)]

theorem DrawsSprite.pixel_of_drawn_twice (hx : x ≠ VF) (hy : y ≠ VF) (hst : DrawsSprite clear x y n s t)
    (htu : DrawsSprite clear' x y n t u) (hpx : px < 64) (hpy : py < 32) : u.pixel px py = s.pixel px py := by
  have hsame := hst.spriteBit_iff (px := px) (py := py) hx hy
  by_cases hbit : SpriteBit x y n s px py
  · rw [htu.pixel_of_spriteBit hpx hpy (hsame.2 hbit), hst.pixel_of_spriteBit hpx hpy hbit, Bool.not_not]
  · rw [htu.pixel_of_not_spriteBit hpx hpy (mt hsame.1 hbit), hst.pixel_of_not_spriteBit hpx hpy hbit]

/-- A sprite collides with its own drawing where that lit a pixel. -/
theorem DrawsSprite.collides_iff (hx : x ≠ VF) (hy : y ≠ VF) (hst : DrawsSprite clear x y n s t) :
    Collides x y n t ↔ ∃ px py, px < 64 ∧ py < 32 ∧ SpriteBit x y n s px py ∧ s.pixel px py = false := by
  refine exists₂_congr fun px py => and_congr_right fun hpx => and_congr_right fun hpy => ?_
  rw [hst.spriteBit_iff hx hy]
  refine and_congr_right fun hbit => ?_
  rw [hst.pixel_of_spriteBit hpx hpy hbit, Bool.not_eq_true']

end

end Sys2Proof.Machine
end

section
/-! The obligations of spec/43_display.md: `Clear` (R290) and `Display` (R291). -/

namespace Sys2Proof.Machine

/-- Settles O48: the two ways of the bounds check; inside memory the sprite's cells are inverted once each. -/
theorem displayXorsTheSprite : Obligations.DisplayXorsTheSprite := by
  intro x y n s
  refine ⟨encodesAs_of_wf rfl (toNat_formXY 0xD#4 x y n), fun hin => ?_, fun h0 hout => ?_⟩
  · have h : n.val = 0 ∨ s.I.toNat + n.val ≤ 4096 := by omega
    have hdraws (p : Config.Params) :
        ∃ t, execDisplayWith p x y n s = .next t ∧ DrawsSprite p.drwVfClear x y n s t :=
      ⟨_, execDisplayWith_inside h p, drawsSprite_drawSprite s x y n _⟩
    exact ⟨hdraws Config.params, hdraws⟩
  · have h : 4096 < s.I.toNat + n.val := by omega
    exact ⟨execDisplayWith_outside h0 h Config.params, execDisplayWith_outside h0 h⟩

/-- Settles O49: both draws invert the same pixels, so the second undoes the first and collides where the first lit. -/
theorem drawingTwiceRestoresTheScreen : Obligations.DrawingTwiceRestoresTheScreen := by
  intro x y n s t hx hy hin h
  obtain rfl : s.drawSprite x y n true = t := Host.Outcome.next.inj ((exec_display_inside hin).symm.trans h)
  have hfirst := drawsSprite_drawSprite s x y n true
  have hsecond := drawsSprite_drawSprite (s.drawSprite x y n true) x y n true
  refine ⟨_, exec_display_inside (s := s.drawSprite x y n true) hin, fun px py hpx hpy => ?_, ?_⟩
  · exact hfirst.pixel_of_drawn_twice hx hy hsecond hpx hpy
  · exact hsecond.getV_VF_eq_one_iff.trans (hfirst.collides_iff hx hy)

/-- Settles O47: no cell of an empty framebuffer is lit, and the frame is the instruction's own. -/
theorem clearPutsOutEveryPixel : Obligations.ClearPutsOutEveryPixel := by
  refine ⟨encodesAs_of_wf rfl rfl, fun s => ?_⟩
  obtain ⟨hparts, -, hregs⟩ := exec_frame (i := .clear) (s := s) rfl
  exact ⟨_, rfl, fun _ _ => rfl, rfl, rfl, hregs, hparts⟩

end Sys2Proof.Machine
end

section
/-! The keypad and the timers (spec/44_keypad_timers.md): the arbiter (R320), a register against the lowest key (R321,
R322), the words of family E (R104), the countdown of a timer (R327), and the sound signal (R328). -/

namespace Sys2Proof.Machine

/-! ### The keypad arbiter (R320) -/

/-- The keys are searched in rising order, so those passed over are the smaller ones. -/
theorem lowestKey_eq_some_iff {keys : Vector Bool 16} {k : Key} :
    lowestKey keys = some k ↔ keys[k] = true ∧ ∀ j : Key, j < k → keys[j] = false := by
  rw [lowestKey, List.find?_eq_some_iff_getElem]
  refine and_congr_right fun _ => ⟨?_, fun hsmaller => ?_⟩
  · rintro ⟨i, hi, rfl, hpassed⟩ j hj
    simpa using hpassed j.val (by simpa [Fin.lt_def] using hj)
  · refine ⟨k.val, by simp, by simp, fun j hj => ?_⟩
    simpa using hsmaller ⟨j, hj.trans k.isLt⟩ hj

/-! ### The key skips (R321, R322) -/

/-- A register names the lowest key where a key is down and the lowest has the register's number (R321). -/
theorem keyMatches_iff {s : State} {x : Reg} :
    s.keyMatches x = true ↔ ∃ k : Key, lowestKey s.keypad = some k ∧ k.val = (s.getV x).toNat := by
  unfold State.keyMatches
  cases lowestKey s.keypad with
  | some k => simp
  | none => simp

/-- The word of an instruction of family E (R104). -/
theorem toNat_formXK_fourteen (x : Reg) (kk : Byte) :
    (formXK 0xE#4 x kk).toNat = 0xE000 + kk.toNat + x.val * 256 :=
  (toNat_formXK _ _ _).trans (Nat.add_right_comm _ _ _)

/-! ### The timers (R327, R328) -/

/-- The countdown is the truncated predecessor: a timer at 0 stays (R327). -/
theorem toNat_countDown (t : Byte) : (countDown t).toNat = t.toNat - 1 := by
  unfold countDown
  split <;> bv_omega

theorem sound_iff {s : State} : s.sound = true ↔ 0 < s.ST.toNat := by
  simp [State.sound, BitVec.lt_def]

end Sys2Proof.Machine
end

section
/-! The obligations of spec/44_keypad_timers.md: the keypad arbiter (R320), the instructions that read it (R321–R323), the
timer instructions (R324–R326) and the timer tick (R327, R328). -/

namespace Sys2Proof.Machine

/-- Settles O50: the search for the first key down, and its failure. -/
theorem lowestKeyIsTheSmallestKeyDown : Obligations.LowestKeyIsTheSmallestKeyDown := fun _ =>
  ⟨fun _ => lowestKey_eq_some_iff, lowestKey_eq_none_iff⟩

/-- Settles O54: a running machine's tick replaces each timer by its countdown; the sound signal reads the new `ST`. -/
theorem tickCountsDownWithoutUnderflow : Obligations.TickCountsDownWithoutUnderflow := by
  intro s hr
  have hST := toNat_countDown s.ST
  refine ⟨_, whileRunning_running hr _, hST, toNat_countDown s.DT, rfl, fun _ _ => rfl, fun q => ?_, ?_⟩
  · cases q <;> simp [Keeps]
  · refine sound_iff.trans ?_
    rw [State.setDT_ST, State.setST_ST, hST]
    omega

/-- Settles O51: the two skips of R155 under one comparison and its negation. -/
theorem keySkipsCompareTheLowestKey : Obligations.KeySkipsCompareTheLowestKey := by
  intro x s
  refine ⟨encodesAs_of_wf rfl (toNat_formXK_fourteen x 0x9E#8), encodesAs_of_wf rfl (toNat_formXK_fourteen x 0xA1#8),
    ?_, ?_⟩
  · exact ⟨_, rfl, skipsWhen_skipIf keyMatches_iff s⟩
  · exact ⟨_, rfl, skipsWhen_skipIf (by rw [Bool.not_eq_true', ← Bool.not_eq_true, keyMatches_iff]) s⟩

/-- Settles O52: the two answers of the arbiter; a key's number fits a byte. -/
theorem getKeyTakesTheLowestKeyOrWaits : Obligations.GetKeyTakesTheLowestKeyOrWaits := by
  intro x s
  refine ⟨encodesAs_of_wf rfl (toNat_formXK_fifteen x 0x0A#8), fun k hk => ?_, fun hnone => execGetKeyOp_none hnone x⟩
  have hbyte : (BitVec.ofNat 8 k.val).toNat = k.val := Nat.mod_eq_of_lt (by omega)
  exact ⟨_, execGetKeyOp_some hk x, setsOnlyReg_setV_advance hbyte x s⟩

/-- Settles O53: each copies its byte; the frames of the two that write a timer are the instructions' own. -/
theorem timerTransfers : Obligations.TimerTransfers := by
  intro x s
  obtain ⟨hdelay, -, hdelayRegs⟩ := exec_frame (i := .setDelay x) (s := s) rfl
  obtain ⟨hsound, -, hsoundRegs⟩ := exec_frame (i := .setSound x) (s := s) rfl
  refine ⟨encodesAs_of_wf rfl (toNat_formXK_fifteen x 0x07#8), encodesAs_of_wf rfl (toNat_formXK_fifteen x 0x15#8),
    encodesAs_of_wf rfl (toNat_formXK_fifteen x 0x18#8), ?_, ?_, ?_⟩
  · exact ⟨_, rfl, setsOnlyReg_setV_advance rfl x s⟩
  · exact ⟨_, rfl, rfl, rfl, hdelayRegs, hdelay⟩
  · exact ⟨_, rfl, rfl, rfl, hsoundRegs, hsound⟩

end Sys2Proof.Machine
end

section
/-! How a step ends a run (spec/60_exceptions.md): the errors of R361 in the order of R362, the halt (R364), and the
actions that a run which has ended no longer admits (R366, R369). -/

namespace Sys2Proof.Machine

/-! ### The errors of a step (R361, R362) -/

/-- The conditions of R361 in the order of R362, each with its error: the fetch, the decoder, executability, and the
instruction's own check. -/
inductive StepRaises (p : Config.Params) (s : State) : Fault → Prop
  | fetch (hpc : 4096 ≤ s.pc.toNat + 1) : StepRaises p s (.fetchOutOfBounds s.pc)
  | unknown {w : Word} (hf : s.fetch = some w) (hd : decode w = .error ⟨w⟩) : StepRaises p s (.unknownOpcode w)
  | sys {w : Word} {nnn : Addr} (hf : s.fetch = some w) (hd : decode w = .ok (.sys nnn)) :
      StepRaises p s (.unimplementedOpcode w (.instr (.sys nnn)))
  | memory {w : Word} {i : Instr} (hf : s.fetch = some w) (hd : decode w = .ok i) (hpos : 0 < dataBytes i)
      (hout : 4096 < s.I.toNat + dataBytes i) : StepRaises p s (.memoryOutOfBounds (max s.I.toNat 4096))
  | call {w : Word} {nnn : Addr} (hf : s.fetch = some w) (hd : decode w = .ok (.call nnn))
      (hfull : p.stackLimit = some s.stack.length) : StepRaises p s (.stackOverflow s.pc)

/-- An instruction that touches bytes outside memory raises, whichever it is (R73, R361). -/
theorem execWith_outside {i : Instr} {s : State} (hpos : 0 < dataBytes i) (hout : 4096 < s.I.toNat + dataBytes i)
    (p : Config.Params) : execWith p i s = .next (s.setRun (.failed (.memoryOutOfBounds (max s.I.toNat 4096)))) := by
  cases i
  case bcd | memDump | memLoad | display => exact withMemory_outside (inRange_eq_false.2 ⟨hpos, hout⟩) _
  all_goals exact absurd hpos (Nat.lt_irrefl 0)

/-- Where a condition of R361 holds, the step takes its error. -/
theorem StepRaises.stepWith_eq {p : Config.Params} {s : State} {e : Fault} (h : StepRaises p s e)
    (hr : s.run = .running) : stepWith p s = .next (s.setRun (.failed e)) := by
  cases h with
  | fetch hpc => exact stepCycle_unfetched hr (fetch_eq_none (by omega))
  | unknown hf hd => exact stepCycle_undecoded hr hf hd
  | sys hf hd =>
    rw [stepWith_decoded p hr hf hd, ← word_of_decode hd]
    rfl
  | memory hf hd hpos hout => rw [stepWith_decoded p hr hf hd, execWith_outside hpos hout]
  | call hf hd hfull => exact (stepWith_decoded p hr hf hd).trans (execCallWith_of_eq hfull _)

/-! ### The halt of a step (R364) -/

/-- A step whose fetched word is `Return` halts on the empty stack. -/
theorem stepWith_halt (p : Config.Params) {s : State} (hr : s.run = .running) (hf : s.fetch = some 0x00EE#16)
    (hs : s.stack = []) : stepWith p s = .next (s.setRun .stopped) :=
  (stepWith_decoded p hr hf rfl).trans (execRet_nil hs)

/-! ### All that a step can do to `run` -/

/-- A step takes an error, halts, or leaves the machine running. -/
theorem stepWith_run_cases {p : Config.Params} {s t : State} (h : stepWith p s = .next t) :
    (∃ e, StepRaises p s e ∧ t = s.setRun (.failed e)) ∨
    (s.fetch = some 0x00EE#16 ∧ s.stack = [] ∧ t = s.setRun .stopped) ∨ t.run = .running := by
  obtain ⟨hr, ⟨hf, rfl⟩ | ⟨w, e, hf, hd, rfl⟩ | ⟨w, i, hf, hd, hx⟩⟩ := stepCycle_cases h
  · exact .inl ⟨_, .fetch (fetch_none hf), rfl⟩
  · obtain rfl : e.word = w := word_of_decode_error hd
    exact .inl ⟨_, .unknown hf hd, rfl⟩
  · obtain rfl : i.word = w := word_of_decode hd
    rcases execWith_cases hx with ⟨rfl, hs, rfl⟩ | ⟨nnn, rfl, rfl⟩ | ⟨hpos, hout, rfl⟩ | ⟨nnn, rfl, hfull, rfl⟩ |
      ⟨hrun, -⟩
    · exact .inr (.inl ⟨hf, hs, rfl⟩)
    · exact .inl ⟨_, .sys hf hd, rfl⟩
    · exact .inl ⟨_, .memory hf hd hpos hout, rfl⟩
    · exact .inl ⟨_, .call hf hd hfull, rfl⟩
    · exact .inr (.inr (hrun.trans hr))

/-- A step that ends in an error had that error's condition, and wrote nothing but `run` (R363). -/
theorem stepWith_failed {p : Config.Params} {s t : State} {e : Fault} (h : stepWith p s = .next t)
    (he : t.run = .failed e) : StepRaises p s e ∧ t = s.setRun (.failed e) := by
  rcases stepWith_run_cases h with ⟨e', hraises, rfl⟩ | ⟨-, -, rfl⟩ | hrun
  · cases he; exact ⟨hraises, rfl⟩
  · cases he
  · cases hrun.symm.trans he

theorem stepWith_failed_iff {p : Config.Params} {s t : State} {e : Fault} (h : stepWith p s = .next t) :
    t.run = .failed e ↔ StepRaises p s e := by
  refine ⟨fun he => (stepWith_failed h he).1, fun hraises => ?_⟩
  obtain ⟨hr, -⟩ := stepCycle_cases h
  cases h.symm.trans (hraises.stepWith_eq hr)
  rfl

/-- A step that halts was at a `Return` with an empty stack, and wrote nothing but `run`. -/
theorem stepWith_stopped {p : Config.Params} {s t : State} (h : stepWith p s = .next t) (hstop : t.run = .stopped) :
    (s.fetch = some 0x00EE#16 ∧ s.stack = []) ∧ t = s.setRun .stopped := by
  rcases stepWith_run_cases h with ⟨e, -, rfl⟩ | ⟨hf, hs, rfl⟩ | hrun
  · cases hstop
  · exact ⟨⟨hf, hs⟩, rfl⟩
  · cases hrun.symm.trans hstop

theorem stepWith_stopped_iff {p : Config.Params} {s t : State} (h : stepWith p s = .next t) :
    t.run = .stopped ↔ s.fetch = some 0x00EE#16 ∧ s.stack = [] := by
  refine ⟨fun hstop => (stepWith_stopped h hstop).1, fun ⟨hf, hs⟩ => ?_⟩
  obtain ⟨hr, -⟩ := stepCycle_cases h
  cases h.symm.trans (stepWith_halt p hr hf hs)
  rfl

/-! ### The host's actions (R366, R369, R372, R373) -/

/-- Every action of the host but clearing the dirty flag is allowed only while the machine runs (decision D34). -/
theorem run_of_act {a : HostAction} {s t : State} (ha : a ≠ .clearRender) (h : act a s = .next t) :
    s.run = .running := by
  cases a with
  | clearRender => exact absurd rfl ha
  | step | decrementRegisters | keyDown k | keyUp k => exact (whileRunning_cases h).1

/-- A key event writes one key of the keypad. -/
theorem getElem_keypad_set (keys : Vector Bool 16) (k j : Key) (b : Bool) :
    (keys.set k b)[j] = if j = k then b else keys[j] := by
  simp only [Fin.getElem_fin, Vector.getElem_set, Fin.ext_iff, eq_comm]

theorem keepsAllBut_setKeypad (keys : Vector Bool 16) (s : State) : KeepsAllBut [.keypad] s (s.setKeypad keys) :=
  fun q => by cases q <;> simp [Keeps]

theorem keepsAllBut_setRender (b : Bool) (s : State) : KeepsAllBut [.shouldRender] s (s.setRender b) :=
  fun q => by cases q <;> simp [Keeps]

end Sys2Proof.Machine
end

section
/-! The obligations of spec/60_exceptions.md: errors (R361–R363), the halt (R364), the end of a run (R366), and the
host's actions (R369, R372, R373). -/

namespace Sys2Proof.Machine

/-- Settles O58: the conditions under which a step raises are those of R361. -/
theorem errorsUnderEveryParameter : Obligations.ErrorsUnderEveryParameter := by
  refine ⟨fun p s => stepWith_answers p, fun p s t e h => ⟨fun he => (stepWith_failed h he).2, ?_⟩⟩
  refine (stepWith_failed_iff h).trans ⟨fun hraises => ?_, ?_⟩
  · cases hraises with
    | fetch hpc => exact .inl ⟨hpc, rfl⟩
    | unknown hf hd => exact .inr ⟨_, hf, .inl ⟨hd, rfl⟩⟩
    | sys hf hd => exact .inr ⟨_, hf, .inr (.inl ⟨_, hd, rfl⟩)⟩
    | memory hf hd hpos hout => exact .inr ⟨_, hf, .inr (.inr (.inl ⟨_, hd, hpos, hout, rfl⟩))⟩
    | call hf hd hfull => exact .inr ⟨_, hf, .inr (.inr (.inr ⟨_, hd, hfull, rfl⟩))⟩
  · rintro (⟨hpc, rfl⟩ | ⟨w, hf, ⟨hd, rfl⟩ | ⟨nnn, hd, rfl⟩ | ⟨i, hd, hpos, hout, rfl⟩ | ⟨nnn, hd, hfull, rfl⟩⟩)
    · exact .fetch hpc
    · exact .unknown hf hd
    · exact .sys hf hd
    · exact .memory hf hd hpos hout
    · exact .call hf hd hfull

/-- Settles O12: at the defaults of R7 no stack is full (decision D18), so the case of `StackOverflow` falls away. -/
theorem errorsFollowThePriorityOrder : Obligations.ErrorsFollowThePriorityOrder := by
  intro s t e h
  rw [← stepWith_params] at h
  obtain ⟨-, herrors⟩ := errorsUnderEveryParameter
  obtain ⟨-, hiff⟩ := herrors Config.params s t e h
  have hnone : Config.params.stackLimit = none := rfl
  simpa only [hnone, reduceCtorEq, false_and, and_false, exists_false, or_false] using hiff

/-- Settles O8, at the defaults of R7. -/
theorem errorStepWritesNothingButRun : Obligations.ErrorStepWritesNothingButRun := by
  intro s t e h he
  rw [← stepWith_params] at h
  exact (stepWith_failed h he).2

/-- Settles O10, at the defaults of R7. -/
theorem stopExactlyAtReturnOnAnEmptyStack : Obligations.StopExactlyAtReturnOnAnEmptyStack := by
  intro s t h
  rw [← stepWith_params] at h
  exact ⟨stepWith_stopped_iff h, fun hstop => (stepWith_stopped h hstop).2⟩

/-- Settles O15: at the defaults of R7, the action that keeps the invariant under every parameter. -/
theorem hostActionsKeepTheInvariant : Obligations.HostActionsKeepTheInvariant := by
  intro a s t hs h
  rw [← actWith_params] at h
  exact actWith_inv hs h

/-- Settles O11: an action that answers is clearing the dirty flag or finds the machine running. -/
theorem endedRunAdmitsNoTransition : Obligations.EndedRunAdmitsNoTransition := fun _ hended =>
  ⟨fun _ ha _ h => hended (run_of_act ha h), rfl⟩

/-- Settles O55: the two key events replace one key of the keypad, the third action the dirty flag. -/
theorem hostWritesKeysAndRenderFlagAlone : Obligations.HostWritesKeysAndRenderFlagAlone := by
  intro k s
  refine ⟨fun hr => ⟨?_, ?_⟩, _, rfl, rfl, rfl, fun _ _ => rfl, keepsAllBut_setRender false s⟩
  · exact ⟨_, whileRunning_running hr _, fun j => getElem_keypad_set s.keypad k j true, rfl, fun _ _ => rfl,
      keepsAllBut_setKeypad _ s⟩
  · exact ⟨_, whileRunning_running hr _, fun j => getElem_keypad_set s.keypad k j false, rfl, fun _ _ => rfl,
      keepsAllBut_setKeypad _ s⟩

end Sys2Proof.Machine
end

section
/-! Construction (spec/70_reset_and_hazards.md): the program's length (R400), the bytes around the program (R400, R401), the
registers and the keypad after reset. -/

namespace Sys2Proof.Machine

/-! ### The program's length (R400, decision D20) -/

/-- A program that fits is stored at 0x200 in the reset state. -/
theorem construct_of_length_le {blob : List Byte} (h : blob.length ≤ 3584) :
    construct blob = some (State.reset.setMemory (State.reset.memory.store 0x200 blob)) :=
  if_pos h

theorem construct_of_length_gt {blob : List Byte} (h : 3584 < blob.length) : construct blob = none :=
  if_neg (Nat.not_le.2 h)

/-! ### Memory outside the program (R71, R401) -/

/-- The unlisted bytes at 0x000–0x04F are the font, in order. -/
theorem Memory.map_unlisted_range : (List.range 0x50).map Memory.unlisted = Config.font := by
  have hlength : Config.font.length = 0x50 := rfl
  refine List.ext_getElem (by rw [List.length_map, List.length_range, hlength]) fun a _ ha => ?_
  rw [List.getElem_map, List.getElem_range, Memory.unlisted, List.getD_eq_getElem _ _ ha]

theorem Memory.unlisted_of_le {a : Nat} (h : 0x50 ≤ a) : Memory.unlisted a = 0#8 :=
  List.getD_eq_default _ _ h

/-- An address outside the program reads as its construction value. -/
theorem read_reset_store_outside {a : Nat} {blob : List Byte} (h : a < 0x200 ∨ 0x200 + blob.length ≤ a) :
    (State.reset.memory.store 0x200 blob).read a = Memory.unlisted a :=
  Memory.read_store_outside _ _ _ _ h

/-- Wherever the program ends, the font is below it (R401). -/
theorem map_read_reset_store_range (blob : List Byte) :
    (List.range 0x50).map (State.reset.memory.store 0x200 blob).read = Config.font := by
  rw [← Memory.map_unlisted_range]
  refine List.map_congr_left fun a ha => read_reset_store_outside (.inl ?_)
  have := List.mem_range.1 ha
  omega

/-! ### Registers and keypad (decision D19) -/

theorem getV_reset (x : Reg) : State.reset.getV x = 0#8 := Vector.getElem_replicate _

theorem getElem_keypad_reset (k : Key) : State.reset.keypad[k] = false := Vector.getElem_replicate _

end Sys2Proof.Machine
end

section
/-! The obligations of spec/70_reset_and_hazards.md: construction (R400) and the font (R401). -/

namespace Sys2Proof.Machine

/-- Settles O56: the program is stored over the reset state, which is the font and zeros. -/
theorem constructPlacesFontAndProgram : Obligations.ConstructPlacesFontAndProgram := by
  refine fun blob => ⟨construct_of_length_gt, fun hfits => ⟨_, construct_of_length_le hfits,
    map_read_reset_store_range blob, fun a hfont hprogram => ?_, fun j hj => ?_, fun a hprogram _ => ?_,
    getV_reset, rfl, rfl, rfl, rfl, rfl, fun _ _ => rfl, getElem_keypad_reset, rfl, rfl⟩⟩
  · exact (read_reset_store_outside (.inl hprogram)).trans (Memory.unlisted_of_le hfont)
  · exact (Memory.read_store_add hj _ _).trans (List.getD_eq_getElem _ _ hj).symm
  · exact (read_reset_store_outside (.inr hprogram)).trans (Memory.unlisted_of_le (by omega))

/-- Settles O14: storing a program that fits keeps memory canonical, and the empty program stores nothing. -/
theorem constructionHasTheInvariant : Obligations.ConstructionHasTheInvariant :=
  ⟨reset_inv, construct_of_length_le (Nat.zero_le _), fun _ _ => construct_inv⟩

end Sys2Proof.Machine
end
